-- ==== Sys2Proof/Word.lean ====
section
/-! DEFINITION. The word types of the core: the 32-bit command word, register and counter (00_scope.md section 4,
`XLEN`), and the byte, memory's smallest addressable unit (20_memory.md R60). -/

namespace Sys2Proof

/-- A command word, an operand register or a control register: 32 bits (10_state.md R21, R26; 30_encoding.md R100). -/
abbrev Word := BitVec 32

/-- One byte of memory (20_memory.md R60). -/
abbrev Byte := BitVec 8

end Sys2Proof
end

