-- ==== Sys2Proof/Syntax.lean ====
section
/-! DEFINITION. The syntax of commands: one constructor of `Instr` per row of the opcode table (30_encoding.md R121),
with the operand fields of the three formats Z, I and K (R101 to R103). -/

namespace Sys2Proof

/-- The fifteen operand registers by name, in number order `x[0]` to `x[14]` (10_state.md R22). -/
inductive Reg where
  | src | srcs | ref0 | ref1 | ref2 | ref3 | refs | maxsad | pred2 | out | dst | dsts | above | left | sum
deriving DecidableEq, Repr

/-- A block width or height, or the side of a square block: the values of the codes LW and LH (30_encoding.md R104,
R105). -/
inductive Dim where
  | d4 | d8 | d16 | d32 | d64
deriving DecidableEq, Repr

/-- A bit-depth tag: 8-bit samples in a byte, or 8, 10 or 12 significant bits in a 16-bit container (00_scope.md R6,
30_encoding.md R106). -/
inductive Tag where
  | b8 | h8 | h10 | h12
deriving DecidableEq, Repr

/-- The sixteen commands (30_encoding.md R110, R121). A kernel command carries its shape and its tag; every other
operand of it is a fixed register (R108). -/
inductive Instr where
  | nop
  | setlo (rd : Reg) (imm : BitVec 16)
  | sethi (rd : Reg) (imm : BitVec 16)
  | sad (w h : Dim) (tag : Tag)
  | sadx4 (w h : Dim) (tag : Tag)
  | sadavg (w h : Dim) (tag : Tag)
  | ipredDc (n : Dim) (tag : Tag)
  | ipredDcLeft (n : Dim) (tag : Tag)
  | ipredDcTop (n : Dim) (tag : Tag)
  | ipredDc128 (n : Dim) (tag : Tag)
  | ipredV (n : Dim) (tag : Tag)
  | ipredH (n : Dim) (tag : Tag)
  | ipredTm (n : Dim) (tag : Tag)
  | ipredD45 (n : Dim) (tag : Tag)
  | ipredD117 (n : Dim) (tag : Tag)
  | ipredD135 (n : Dim) (tag : Tag)
deriving DecidableEq, Repr

end Sys2Proof
end

