-- ==== Sys2Proof/Config.lean ====
section
/-! DEFINITION. What the implementation fixes (00_scope.md section 4, 92_eei_decisions.md section 6) and the free
values. The two parameters a claim should not depend on, the map of memory and the policy of an early exit, are the
fields of `Platform`, which State carries: a claim about every state then holds for every platform. -/

namespace Sys2Proof

/-- One interval of byte addresses that the platform maps, `base` to `base + size - 1`: plain memory, with no side
effect of a read (20_memory.md R69, R78). -/
structure Region where
  base : Nat
  size : Nat
deriving DecidableEq, Repr

/-- The policy `SAD_EXIT`: what SAD returns when the exact sum exceeds the bound (40_sad.md R144). -/
inductive SadExit where
  /-- The exact sum always: the policy this hardware takes. -/
  | exact
  /-- The sum of the rows up to the first after which the running sum exceeds the bound. -/
  | rowPartial
  /-- The exact sum up to the bound, and above it any value not below the bound. -/
  | anyAdmitted
deriving DecidableEq, Repr

/-- The parameters of the platform. `regions` gives the predicate `Mapped`, which 92_eei_decisions.md D16 leaves OPEN
(log 4): every set of 32-bit addresses is a list of intervals. `sadExit` is `SAD_EXIT` (log 6). No step changes them. -/
structure Platform where
  regions : List Region
  sadExit : SadExit
deriving DecidableEq, Repr

/-- The platform at reset. DESIGN CHOICE (log 4), unsafe: the whole space of 20_memory.md R60 is mapped, where the spec
leaves `Mapped` open. `exact` is the value 40_sad.md R144 gives this hardware. -/
def Config.resetPlatform : Platform := { regions := [{ base := 0, size := 2 ^ 32 }], sadExit := .exact }

/-- The platform the vectors of 95_test_vectors.md section 0 assume: 64 KiB of plain memory from address 0. -/
def Config.vectorPlatform : Platform := { regions := [{ base := 0, size := 2 ^ 16 }], sadExit := .exact }

/-- What a byte of memory reads as before the host has written it. DESIGN CHOICE (log 5), unsafe: the spec leaves it
unspecified (93_implementation_defined.md U8); its own vectors start from zero bytes. -/
def Config.unwrittenByte : Byte := 0

/-- `SAD_SHAPES`, the thirteen shapes `(W, H)` a SAD command admits (00_scope.md R7; UNVERIFIED, log 11). -/
def Config.sadShapes : List (Nat × Nat) :=
  [(4, 4), (4, 8), (8, 4), (8, 8), (8, 16), (16, 8), (16, 16), (16, 32), (32, 16), (32, 32), (32, 64), (64, 32), (64, 64)]

/-- `IPRED_SIZES`, the sides an intra command admits (00_scope.md R8). -/
def Config.ipredSizes : List Nat := [4, 8, 16, 32]

/-- `D45_ABOVE_EXTENT(N)`, how many `above` samples D45 has (42_intra_directional.md R192; UNVERIFIED, log 11). -/
def Config.d45AboveExtent (n : Nat) : Nat := 2 * n

/-- FREE VALUE (log 6). The draw of the policy `any_admitted` (40_sad.md R144), a fresh one for each value of the
counter. -/
opaque Config.sadDraw : Nat → Word

/-- FREE VALUE (log 7). Whether the byte at an address holds what a command abandoned by a reset would have written, and
not its old value (70_reset_and_hazards.md R281, 93_implementation_defined.md U9), fresh for each value of the
counter. -/
opaque Config.abandonedByteWritten : Nat → Nat → Bool

/-- FREE VALUE (log 8). What the read port gives while STATUS.BUSY is 1, for the selects whose value is then
unspecified (10_state.md R41, 93_implementation_defined.md U7). -/
opaque Config.readWhileBusy : Nat → BitVec 5 → Word

end Sys2Proof
end

