-- ==== Sys2Proof/WellFormed.lean ====
section
/-! DEFINITION. Which terms of `Instr` are commands of the core: the shapes a SAD command admits (00_scope.md R7) and
the sides an intra command admits (R8). That a register number is 0 to 14 and that a size code is 0 to 4 holds by the
types. -/

namespace Sys2Proof

/-- The number of samples a width, height or side stands for: `4 << code` (30_encoding.md R104). -/
def Dim.size : Dim → Nat
  | .d4 => 4
  | .d8 => 8
  | .d16 => 16
  | .d32 => 32
  | .d64 => 64

/-- The shape is one of `SAD_SHAPES` (00_scope.md R7). -/
def sadShapeOk (w h : Dim) : Bool := decide ((w.size, h.size) ∈ Config.sadShapes)

/-- The side is one of `IPRED_SIZES` (00_scope.md R8). -/
def ipredSideOk (n : Dim) : Bool := decide (n.size ∈ Config.ipredSizes)

/-- The instruction is one of the words the core accepts (30_encoding.md R121, the constraint column). -/
def Instr.wellFormed : Instr → Bool
  | .nop => true
  | .setlo _ _ => true
  | .sethi _ _ => true
  | .sad w h _ => sadShapeOk w h
  | .sadx4 w h _ => sadShapeOk w h
  | .sadavg w h _ => sadShapeOk w h
  | .ipredDc n _ => ipredSideOk n
  | .ipredDcLeft n _ => ipredSideOk n
  | .ipredDcTop n _ => ipredSideOk n
  | .ipredDc128 n _ => ipredSideOk n
  | .ipredV n _ => ipredSideOk n
  | .ipredH n _ => ipredSideOk n
  | .ipredTm n _ => ipredSideOk n
  | .ipredD45 n _ => ipredSideOk n
  | .ipredD117 n _ => ipredSideOk n
  | .ipredD135 n _ => ipredSideOk n

end Sys2Proof
end

