-- ==== Sys2Proof/Decode.lean ====
section
/-! DEFINITION. Decoding a command word (30_encoding.md R116), total, an illegal word rejected with its reason; and the
encoder, the word of an instruction, from the same formats (R101 to R103, R110). -/

namespace Sys2Proof

/-- Why a word is no command (30_encoding.md R111, R112, R113). The core reports every one of them alike, as
ILLEGAL_CMD with the word (R116), so the reason is for a reader only. -/
inductive Illegal where
  /-- OP is not one of the seven (R111). -/
  | reservedOpcode
  /-- A must-be-zero bit is 1 (R112). -/
  | reservedBits
  /-- LW or LH is 5, 6 or 7 (R112). -/
  | reservedSize
  /-- MODE is not 0 in a SAD command, or is 10 to 15 in IPRED (R112). -/
  | reservedMode
  /-- RD is 15 (R112). -/
  | reservedRegister
  /-- The shape is not admitted (R113). -/
  | shapeNotAdmitted
deriving DecidableEq, Repr

/-- `w[hi:lo]`, the field of bits `hi` down to `lo` read as an unsigned integer (00_scope.md section 5.1). -/
def bits (w : Word) (hi lo : Nat) : Nat := w.toNat / 2 ^ lo % 2 ^ (hi - lo + 1)

/-- The register of a number (30_encoding.md R108, 10_state.md R22); 15 is reserved. -/
def Reg.ofNumber? : Nat → Option Reg
  | 0 => some .src
  | 1 => some .srcs
  | 2 => some .ref0
  | 3 => some .ref1
  | 4 => some .ref2
  | 5 => some .ref3
  | 6 => some .refs
  | 7 => some .maxsad
  | 8 => some .pred2
  | 9 => some .out
  | 10 => some .dst
  | 11 => some .dsts
  | 12 => some .above
  | 13 => some .left
  | 14 => some .sum
  | _ => none

/-- The number of a register (10_state.md R22). -/
def Reg.number : Reg → Nat
  | .src => 0
  | .srcs => 1
  | .ref0 => 2
  | .ref1 => 3
  | .ref2 => 4
  | .ref3 => 5
  | .refs => 6
  | .maxsad => 7
  | .pred2 => 8
  | .out => 9
  | .dst => 10
  | .dsts => 11
  | .above => 12
  | .left => 13
  | .sum => 14

/-- The size a code LW or LH stands for (30_encoding.md R104, R105); 5, 6 and 7 are reserved. -/
def Dim.ofCode? : Nat → Option Dim
  | 0 => some .d4
  | 1 => some .d8
  | 2 => some .d16
  | 3 => some .d32
  | 4 => some .d64
  | _ => none

/-- The code of a size (30_encoding.md R104, R105). -/
def Dim.code : Dim → Nat
  | .d4 => 0
  | .d8 => 1
  | .d16 => 2
  | .d32 => 3
  | .d64 => 4

/-- The tag of a value of BD, a two-bit field (30_encoding.md R106). -/
def Tag.ofCode : Nat → Tag
  | 0 => .b8
  | 1 => .h8
  | 2 => .h10
  | _ => .h12

/-- The value of BD of a tag (30_encoding.md R106). -/
def Tag.code : Tag → Nat
  | .b8 => 0
  | .h8 => 1
  | .h10 => 2
  | .h12 => 3

/-- The intra command of a MODE (30_encoding.md R107); 10 to 15 are reserved. -/
def ipredOfMode? : Nat → Option (Dim → Tag → Instr)
  | 0 => some .ipredDc
  | 1 => some .ipredDcLeft
  | 2 => some .ipredDcTop
  | 3 => some .ipredDc128
  | 4 => some .ipredV
  | 5 => some .ipredH
  | 6 => some .ipredTm
  | 7 => some .ipredD45
  | 8 => some .ipredD117
  | 9 => some .ipredD135
  | _ => none

/-- The rest of decoding a word of format Z (30_encoding.md R103, R116). -/
def decodeZ (w : Word) : Except Illegal Instr :=
  if bits w 25 0 = 0 then .ok .nop else .error .reservedBits

/-- The rest of decoding a word of format I (30_encoding.md R102, R116). -/
def decodeI (mk : Reg → BitVec 16 → Instr) (w : Word) : Except Illegal Instr :=
  if bits w 21 16 = 0 then
    match Reg.ofNumber? (bits w 25 22) with
    | some rd => .ok (mk rd (BitVec.ofNat 16 (bits w 15 0)))
    | none => .error .reservedRegister
  else .error .reservedBits

/-- The rest of decoding a SAD command (30_encoding.md R101, R116): MODE 0 and an admitted shape. -/
def decodeSad (mk : Dim → Dim → Tag → Instr) (w : Word) : Except Illegal Instr :=
  if bits w 13 0 = 0 then
    match Dim.ofCode? (bits w 21 19), Dim.ofCode? (bits w 18 16) with
    | some bw, some bh =>
      if bits w 25 22 = 0 then
        if sadShapeOk bw bh then .ok (mk bw bh (Tag.ofCode (bits w 15 14))) else .error .shapeNotAdmitted
      else .error .reservedMode
    | _, _ => .error .reservedSize
  else .error .reservedBits

/-- The rest of decoding IPRED (30_encoding.md R101, R107, R116): a square block of an admitted side. -/
def decodeIpred (w : Word) : Except Illegal Instr :=
  if bits w 13 0 = 0 then
    match Dim.ofCode? (bits w 21 19), Dim.ofCode? (bits w 18 16) with
    | some bw, some bh =>
      match ipredOfMode? (bits w 25 22) with
      | some mk =>
        if bw = bh ∧ ipredSideOk bw then .ok (mk bw (Tag.ofCode (bits w 15 14))) else .error .shapeNotAdmitted
      | none => .error .reservedMode
    | _, _ => .error .reservedSize
  else .error .reservedBits

/-- Decoding a command word (30_encoding.md R110, R116): it reads no register and no memory. -/
def decode (w : Word) : Except Illegal Instr :=
  match bits w 31 26 with
  | 0x01 => decodeZ w
  | 0x02 => decodeI .setlo w
  | 0x03 => decodeI .sethi w
  | 0x10 => decodeSad .sad w
  | 0x11 => decodeSad .sadx4 w
  | 0x12 => decodeSad .sadavg w
  | 0x20 => decodeIpred w
  | _ => .error .reservedOpcode

/-- A word of format I (30_encoding.md R102). -/
def encodeI (op : Nat) (rd : Reg) (imm : BitVec 16) : Word :=
  BitVec.ofNat 32 (op * 2 ^ 26 + rd.number * 2 ^ 22 + imm.toNat)

/-- A word of format K (30_encoding.md R101). -/
def encodeK (op mode : Nat) (w h : Dim) (tag : Tag) : Word :=
  BitVec.ofNat 32 (op * 2 ^ 26 + mode * 2 ^ 22 + w.code * 2 ^ 19 + h.code * 2 ^ 16 + tag.code * 2 ^ 14)

/-- The word of an instruction (30_encoding.md R101 to R110). -/
def encode : Instr → Word
  | .nop => BitVec.ofNat 32 (0x01 * 2 ^ 26)
  | .setlo rd imm => encodeI 0x02 rd imm
  | .sethi rd imm => encodeI 0x03 rd imm
  | .sad w h tag => encodeK 0x10 0 w h tag
  | .sadx4 w h tag => encodeK 0x11 0 w h tag
  | .sadavg w h tag => encodeK 0x12 0 w h tag
  | .ipredDc n tag => encodeK 0x20 0 n n tag
  | .ipredDcLeft n tag => encodeK 0x20 1 n n tag
  | .ipredDcTop n tag => encodeK 0x20 2 n n tag
  | .ipredDc128 n tag => encodeK 0x20 3 n n tag
  | .ipredV n tag => encodeK 0x20 4 n n tag
  | .ipredH n tag => encodeK 0x20 5 n n tag
  | .ipredTm n tag => encodeK 0x20 6 n n tag
  | .ipredD45 n tag => encodeK 0x20 7 n n tag
  | .ipredD117 n tag => encodeK 0x20 8 n n tag
  | .ipredD135 n tag => encodeK 0x20 9 n n tag

/-- The `match` of the instruction's row of the opcode table (30_encoding.md R121). -/
def Instr.tableMatch : Instr → Word
  | .nop => 0x04000000
  | .setlo _ _ => 0x08000000
  | .sethi _ _ => 0x0C000000
  | .sad _ _ _ => 0x40000000
  | .sadx4 _ _ _ => 0x44000000
  | .sadavg _ _ _ => 0x48000000
  | .ipredDc _ _ => 0x80000000
  | .ipredDcLeft _ _ => 0x80400000
  | .ipredDcTop _ _ => 0x80800000
  | .ipredDc128 _ _ => 0x80C00000
  | .ipredV _ _ => 0x81000000
  | .ipredH _ _ => 0x81400000
  | .ipredTm _ _ => 0x81800000
  | .ipredD45 _ _ => 0x81C00000
  | .ipredD117 _ _ => 0x82000000
  | .ipredD135 _ _ => 0x82400000

/-- The `mask` of the instruction's row of the opcode table (30_encoding.md R121). -/
def Instr.tableMask : Instr → Word
  | .nop => 0xFFFFFFFF
  | .setlo _ _ => 0xFC3F0000
  | .sethi _ _ => 0xFC3F0000
  | .sad _ _ _ => 0xFFC03FFF
  | .sadx4 _ _ _ => 0xFFC03FFF
  | .sadavg _ _ _ => 0xFFC03FFF
  | .ipredDc _ _ => 0xFFC03FFF
  | .ipredDcLeft _ _ => 0xFFC03FFF
  | .ipredDcTop _ _ => 0xFFC03FFF
  | .ipredDc128 _ _ => 0xFFC03FFF
  | .ipredV _ _ => 0xFFC03FFF
  | .ipredH _ _ => 0xFFC03FFF
  | .ipredTm _ _ => 0xFFC03FFF
  | .ipredD45 _ _ => 0xFFC03FFF
  | .ipredD117 _ _ => 0xFFC03FFF
  | .ipredD135 _ _ => 0xFFC03FFF

/-- The instruction decoded from the `nbits` low bits of `w`, numbered as the opcode table numbers them; a command is
one 32-bit word presented whole on the command port, with no byte order of its own (30_encoding.md R100). -/
def decodeTableWord (nbits w : Nat) : Option Instr :=
  match decode (BitVec.ofNat 32 (w % 2 ^ nbits)) with
  | .ok i => some i
  | .error _ => none

end Sys2Proof
end

