-- ==== Sys2Proof/Machine/State.lean ====
section
/-! DEFINITION. The state of one core, the memory and the host's next actions, as plain data; the reasons a step can
stop; the state after reset (10_state.md). -/

namespace Sys2Proof.Machine

/-- The fifteen operand registers (10_state.md R21, R22). -/
structure Regs where
  src : Word
  srcs : Word
  ref0 : Word
  ref1 : Word
  ref2 : Word
  ref3 : Word
  refs : Word
  maxsad : Word
  pred2 : Word
  out : Word
  dst : Word
  dsts : Word
  above : Word
  left : Word
  sum : Word
deriving DecidableEq, Repr

/-- Every operand register 0 (10_state.md R45). -/
def Regs.zero : Regs :=
  { src := 0, srcs := 0, ref0 := 0, ref1 := 0, ref2 := 0, ref3 := 0, refs := 0, maxsad := 0, pred2 := 0, out := 0,
    dst := 0, dsts := 0, above := 0, left := 0, sum := 0 }

/-- The three bits of STATUS (10_state.md R27); bits 31:3 read as 0 and hold nothing. -/
structure Status where
  busy : Bool
  fault : Bool
  gt : Bool
deriving DecidableEq, Repr

/-- What CAUSE holds (10_state.md R28): no fault, or one of the four faults (60_exceptions.md R241). -/
inductive Cause where
  | noFault
  | illegalCmd
  | misaligned
  | access
  | dstStride
deriving DecidableEq, Repr

/-- What the host can do to a core (10_state.md R42). -/
inductive HostAction where
  /-- `HostCmd(w)`: offer the command word `w` on the command port. -/
  | command (w : Word)
  /-- `HostRead(s)`: select register `s` on the read port. -/
  | readPort (sel : BitVec 5)
  /-- `HostReset`: assert `rst`, with no command executing. -/
  | reset
  /-- `HostCmd(w)`, and `HostReset` while that command is executing (70_reset_and_hazards.md R281; log 7). -/
  | resetDuring (w : Word)
  /-- Memory access: read the byte at `a`. -/
  | readMemory (a : Word)
  /-- Memory access: write the byte `b` at `a`. -/
  | writeMemory (a : Word) (b : Byte)
deriving DecidableEq, Repr

/-- Memory: the listed bytes by address, addresses strictly rising, no entry equal to what an unlisted byte reads as
(log 5). -/
abbrev Memory := List Host.Cell

/-- Why a step stops. No command ever stops: the four faults of the core are next states (60_exceptions.md R246). -/
inductive Fault where
  /-- Raised by the step when the host offers commands while `cmd_ready` is 0 and does nothing else afterwards: such an
  offer has no step (10_state.md R42), and the stream is stuck until reset (70_reset_and_hazards.md R289). Safe: the
  core does nothing further either (log 2). -/
  | commandStreamStuck
  /-- Raised by the step when the host itself reads or writes a byte that is not mapped. Safe: the spec gives the host
  only memory it owns (10_state.md R42, log 10). -/
  | hostAccessUnmapped (a : Word)
deriving DecidableEq, Repr

/-- Why an instruction is refused. Every instruction of the opcode table has its meaning, so nothing raises it. -/
inductive Refusal where
  /-- Raised by an arm of `exec` that has no meaning yet: no arm is left so. Safe. -/
  | notModelled (mnemonic : String)
deriving DecidableEq, Repr

/-- The whole machine. -/
structure State where
  /-- The operand registers (10_state.md R21). -/
  regs : Regs
  /-- STATUS (R27). -/
  status : Status
  /-- CAUSE (R28). -/
  cause : Cause
  /-- FINFO (R29). -/
  finfo : Word
  /-- CCNT (R30). -/
  ccnt : Word
  /-- The input port `rd_sel` (R37, R41). -/
  rdSel : BitVec 5
  /-- What the host does next, in order: the ports `cmd_word`, `cmd_valid` and `rst` over time (R37, R42; log 1). -/
  host : List HostAction
  /-- The memory the host owns (R33; 20_memory.md R60). -/
  mem : Memory
  /-- The MODEL's own field: the parameters of the platform (log 4). -/
  platform : Platform
  /-- The MODEL's own field: how many free values have been used (logs 6 and 7). -/
  draws : Nat
deriving DecidableEq, Repr

/-- The machine right after reset (10_state.md R45), on the platform of `Config.resetPlatform`, with no byte of memory
written (log 5) and a host that has nothing to do yet (log 1). -/
def State.reset : State :=
  { regs := Regs.zero, status := { busy := false, fault := false, gt := false }, cause := .noFault, finfo := 0,
    ccnt := 0, rdSel := 0, host := [], mem := [], platform := Config.resetPlatform, draws := 0 }

end Sys2Proof.Machine
end

