-- ==== Sys2Proof/Machine/Arith.lean ====
section
/-! DEFINITION. The arithmetic helpers on unbounded integers (00_scope.md R1 to R5). -/

namespace Sys2Proof.Machine

/-- The absolute difference of two naturals (00_scope.md R1). -/
def absdiff (a b : Nat) : Nat := if b ≤ a then a - b else b - a

/-- The mean of two samples, a half rounded up (00_scope.md R2). -/
def avg2 (a b : Nat) : Nat := (a + b + 1) / 2

/-- The mean of three samples with weights 1, 2, 1, a half rounded up (00_scope.md R3). -/
def avg3 (a b c : Nat) : Nat := (a + 2 * b + c + 2) / 4

/-- The value nearest to `v` between `lo` and `hi` (00_scope.md R4). -/
def clamp (v lo hi : Int) : Int := if v < lo then lo else if hi < v then hi else v

/-- The mean of `n` samples of sum `s`, a half rounded up (00_scope.md R5). -/
def rmean (s n : Nat) : Nat := (s + n / 2) / n

/-- The sum of `f` over `0` to `n - 1`. -/
def sumTo (n : Nat) (f : Nat → Nat) : Nat := ((List.range n).map f).sum

end Sys2Proof.Machine
end

