-- ==== Sys2Proof/Machine/Ops.lean ====
section
/-! DEFINITION. The shared operations: memory, registers, the operand checks of a kernel command, taking a fault and
leaving the fault state. -/

namespace Sys2Proof

/-! ### The address map (20_memory.md) -/

/-- `Mapped(a)`, given by the platform (20_memory.md R76, R78; log 4). -/
def Platform.mapped (p : Platform) (a : Nat) : Bool :=
  p.regions.any (fun r => decide (r.base ≤ a) && decide (a < r.base + r.size))

/-- The address is in `0` to `2 ^ 32 - 1` and mapped (20_memory.md R76). -/
def Platform.accessible (p : Platform) (a : Int) : Bool :=
  decide (0 ≤ a) && decide (a < 2 ^ 32) && p.mapped a.toNat

end Sys2Proof

namespace Sys2Proof.Machine

/-! ### Memory (20_memory.md) -/

/-- The byte at `x`; an unlisted byte reads as `Config.unwrittenByte` (log 5). -/
def Memory.read : Memory → Nat → Byte
  | [], _ => Config.unwrittenByte
  | (a, b) :: m, x => if x = a then b else Memory.read m x

/-- Memory after the byte `v` is stored at `x`, in the canonical form again. -/
def Memory.write : Memory → Nat → Byte → Memory
  | [], x, v => if v = Config.unwrittenByte then [] else [(x, v)]
  | (a, b) :: m, x, v =>
    if x < a then (if v = Config.unwrittenByte then (a, b) :: m else (x, v) :: (a, b) :: m)
    else if x = a then (if v = Config.unwrittenByte then m else (x, v) :: m)
    else (a, b) :: Memory.write m x v

/-- The canonical form: addresses strictly rising and below `2 ^ 32`, no entry equal to what an unlisted byte reads
as. -/
abbrev Memory.wf (m : Memory) : Prop :=
  m.Pairwise (fun c d => c.1 < d.1) ∧ (∀ c ∈ m, c.1 < 2 ^ 32 ∧ c.2 ≠ Config.unwrittenByte)

/-- `MemRead(a, n)`: `n` bytes at `a`, the lowest address least significant (20_memory.md R61, R63). Used only after
the check of R76 has admitted the bytes. -/
def Memory.readLE (m : Memory) (a : Int) : Nat → Nat
  | 0 => 0
  | n + 1 => (Memory.read m a.toNat).toNat + 256 * Memory.readLE m (a + 1) n

/-- `MemWrite(a, n, v)`: `v` as `n` bytes at `a`, the lowest address least significant (20_memory.md R61, R64). Used
only after the check of R76 has admitted the bytes. -/
def Memory.writeLE (m : Memory) (a : Int) : Nat → Nat → Memory
  | 0, _ => m
  | n + 1, v => Memory.writeLE (Memory.write m a.toNat (BitVec.ofNat 8 v)) (a + 1) n (v / 256)

/-- The stores of a command, each an address and a value of `n` bytes, in order (20_memory.md R77 step 5). -/
def Memory.storeAll (m : Memory) (n : Nat) (stores : List (Int × Nat)) : Memory :=
  stores.foldl (fun m' st => Memory.writeLE m' st.1 n st.2) m

/-- Memory `m` with the bytes of `m'` at the addresses that `pick` chooses. Where the two agree the choice says nothing,
so only the addresses that one of them lists are visited. -/
def Memory.mix (m m' : Memory) (pick : Nat → Bool) : Memory :=
  (m.map Prod.fst ++ m'.map Prod.fst).foldl
    (fun acc a => if pick a then Memory.write acc a (Memory.read m' a) else acc) m

/-! ### Registers (10_state.md) -/

/-- `x[r]` (10_state.md R21, R22). -/
def Regs.get (x : Regs) : Reg → Word
  | .src => x.src
  | .srcs => x.srcs
  | .ref0 => x.ref0
  | .ref1 => x.ref1
  | .ref2 => x.ref2
  | .ref3 => x.ref3
  | .refs => x.refs
  | .maxsad => x.maxsad
  | .pred2 => x.pred2
  | .out => x.out
  | .dst => x.dst
  | .dsts => x.dsts
  | .above => x.above
  | .left => x.left
  | .sum => x.sum

/-- `x[r] <- v` (10_state.md R21, R22). -/
def Regs.set (x : Regs) (r : Reg) (v : Word) : Regs :=
  match r with
  | .src => { x with src := v }
  | .srcs => { x with srcs := v }
  | .ref0 => { x with ref0 := v }
  | .ref1 => { x with ref1 := v }
  | .ref2 => { x with ref2 := v }
  | .ref3 => { x with ref3 := v }
  | .refs => { x with refs := v }
  | .maxsad => { x with maxsad := v }
  | .pred2 => { x with pred2 := v }
  | .out => { x with out := v }
  | .dst => { x with dst := v }
  | .dsts => { x with dsts := v }
  | .above => { x with above := v }
  | .left => { x with left := v }
  | .sum => { x with sum := v }

/-- Operand register `r` of the machine. -/
def State.reg (s : State) (r : Reg) : Word := s.regs.get r

/-- The machine with operand register `r` written. -/
def State.writeReg (s : State) (r : Reg) (v : Word) : State := { s with regs := s.regs.set r v }

/-- The machine with its memory replaced. -/
def State.withMem (s : State) (m : Memory) : State := { s with mem := m }

/-! ### Accepting, retiring, faulting, reset -/

/-- `cmd_ready`: 1 exactly when BUSY and FAULT are both 0 (10_state.md R37). -/
def State.ready (s : State) : Bool := !s.status.busy && !s.status.fault

/-- The command is accepted: BUSY is set (10_state.md R27, R38). -/
def State.accept (s : State) : State := { s with status := { s.status with busy := true } }

/-- `retire`: the command is complete and counted, BUSY is cleared (10_state.md R27, R30). -/
def State.retire (s : State) : State :=
  { s with ccnt := s.ccnt + 1, status := { s.status with busy := false } }

/-- `raise <Fault>(info)`, TAKING A FAULT: FAULT set, BUSY cleared, CAUSE and FINFO recorded, and nothing else; the
command does not retire (60_exceptions.md R246, R248). -/
def State.raise (s : State) (c : Cause) (info : Word) : State :=
  { s with status := { s.status with fault := true, busy := false }, cause := c, finfo := info }

/-- The reset of the core, THE ONLY WAY OUT of the fault state (60_exceptions.md R249; 70_reset_and_hazards.md R280):
every piece of core state at its value of 10_state.md R45; memory and the host are not the core's. -/
def State.resetCore (s : State) : State :=
  { s with regs := Regs.zero, status := { busy := false, fault := false, gt := false }, cause := .noFault, finfo := 0,
           ccnt := 0 }

/-! ### The operand checks of a kernel command -/

/-- What a kernel command has checked before it reads or writes anything (20_memory.md R77 step 2): for IPRED the
side and DSTS; the pointers it uses with the multiple each must be, in register-number order; the byte addresses of
both footprints in the order of 60_exceptions.md R245. -/
structure KernelCheck where
  destStride : Option (Nat × Word)
  pointers : List (Word × Nat)
  footprint : List Int

/-- DST_STRIDE: the destination stride is below the side (60_exceptions.md R244). -/
def KernelCheck.strideFault (c : KernelCheck) : Option (Cause × Word) :=
  match c.destStride with
  | some (n, dsts) => if dsts.toNat < n then some (.dstStride, dsts) else none
  | none => none

/-- MISALIGNED: the first pointer that is not a multiple of what it must be (60_exceptions.md R243). -/
def KernelCheck.alignFault (c : KernelCheck) : Option (Cause × Word) :=
  match c.pointers.find? (fun p => decide (p.1.toNat % p.2 ≠ 0)) with
  | some p => some (.misaligned, p.1)
  | none => none

/-- ACCESS: the first address of the footprints that is out of range or not mapped, modulo `2 ^ 32`
(60_exceptions.md R245). -/
def KernelCheck.accessFault (c : KernelCheck) (p : Platform) : Option (Cause × Word) :=
  match c.footprint.find? (fun a => !p.accessible a) with
  | some a => some (.access, BitVec.ofInt 32 a)
  | none => none

/-- The one fault a kernel command reports, in the order of 60_exceptions.md R247. -/
def KernelCheck.firstFault (c : KernelCheck) (p : Platform) : Option (Cause × Word) :=
  match c.strideFault with
  | some f => some f
  | none =>
    match c.alignFault with
    | some f => some f
    | none => c.accessFault p

/-- A kernel command (20_memory.md R77): all checks first; then the effect, whose every read is of the state before;
then it retires. A fault leaves no other effect (60_exceptions.md R248). -/
def runKernel (c : KernelCheck) (effect : State → State) (s : State) : Host.Outcome State Fault Refusal :=
  match c.firstFault s.platform with
  | some (cause, info) => .next (s.raise cause info)
  | none => .next (effect s).retire

end Sys2Proof.Machine
end

