-- ==== Sys2Proof/Machine/Operands.lean ====
section
/-! DEFINITION. Operand forms: sample representations, sample and block addressing, footprints, alignment. -/

namespace Sys2Proof

/-- The sample size `ss` in bytes (00_scope.md R6). -/
def Tag.ss : Tag → Nat
  | .b8 => 1
  | .h8 => 2
  | .h10 => 2
  | .h12 => 2

/-- The bit depth `bd` (00_scope.md R6). -/
def Tag.bd : Tag → Nat
  | .b8 => 8
  | .h8 => 8
  | .h10 => 10
  | .h12 => 12

/-- The largest sample value `maxv = 2 ^ bd - 1` (00_scope.md R6). -/
def Tag.maxv (t : Tag) : Nat := 2 ^ t.bd - 1

end Sys2Proof

namespace Sys2Proof.Machine

/-- The address of the sample at index `i` from base pointer `p`, on unbounded integers (20_memory.md R65, R66). -/
def smpAddr (p : Word) (i : Int) (ss : Nat) : Int := (p.toNat : Int) + i * (ss : Int)

/-- `Smp(p, i, ss)`: the sample at index `i` from base pointer `p`, the whole container value
(20_memory.md R62, R66). -/
def State.smp (s : State) (p : Word) (i : Int) (ss : Nat) : Nat := s.mem.readLE (smpAddr p i ss) ss

/-- The index of the sample at column `x`, row `y` for a stride in samples (20_memory.md R65). -/
def pixIndex (stride x y : Nat) : Int := ((y * stride + x : Nat) : Int)

/-- `Pix(p, s, x, y, ss)`: the sample at column `x`, row `y` of a block (20_memory.md R67). -/
def State.pix (s : State) (p : Word) (stride x y ss : Nat) : Nat := s.smp p (pixIndex stride x y) ss

/-- The bytes of the sample at index `i`, the lower address first. -/
def smpBytes (p : Word) (i : Int) (ss : Nat) : List Int := (List.range ss).map (fun k : Nat => smpAddr p i ss + (k : Int))

/-- `Blk(p, s, W, H, ss)`: the bytes of a block, row 0 first, within a row column 0 first, within a sample the lower
address first (20_memory.md R70; 60_exceptions.md R245). -/
def blk (p : Word) (stride w h ss : Nat) : List Int :=
  (List.range h).flatMap (fun y => (List.range w).flatMap (fun x => smpBytes p (pixIndex stride x y) ss))

/-- `Row(p, lo, hi, ss)` for the indices listed: the bytes of those samples of a contiguous array (20_memory.md R71). -/
def row (p : Word) (idx : List Int) (ss : Nat) : List Int := idx.flatMap (fun i => smpBytes p i ss)

/-- The `n` indices from `lo` upward. -/
def idxFrom (lo : Int) (n : Nat) : List Int := (List.range n).map (fun k : Nat => lo + (k : Int))

/-- A pointer to samples with the multiple it must be: 2 for a wide tag, 1 (no test) for `b8` (20_memory.md R68). A
sample's alignment is its size. -/
def samplePointer (s : State) (tag : Tag) (r : Reg) : Word × Nat := (s.reg r, tag.ss)

/-- The four reference pointers in order (10_state.md R23); `k` beyond 3 names REF3. -/
def refReg : Nat → Reg
  | 0 => .ref0
  | 1 => .ref1
  | 2 => .ref2
  | _ => .ref3

/-- `src[y][x]` (20_memory.md R67). -/
def State.srcAt (s : State) (ss x y : Nat) : Nat := s.pix (s.reg .src) (s.reg .srcs).toNat x y ss

/-- `ref_k[y][x]` (20_memory.md R67). -/
def State.refAt (s : State) (k ss x y : Nat) : Nat := s.pix (s.reg (refReg k)) (s.reg .refs).toNat x y ss

/-- `pred2[y][x]`: the second predictor is tightly packed, its stride the block width (20_memory.md R65, R67). -/
def State.pred2At (s : State) (w ss x y : Nat) : Nat := s.pix (s.reg .pred2) w x y ss

/-- `above[i]`, the corner for `i = -1` (20_memory.md R66). -/
def State.aboveAt (s : State) (ss : Nat) (i : Int) : Nat := s.smp (s.reg .above) i ss

/-- `left[j]` (20_memory.md R66). -/
def State.leftAt (s : State) (ss : Nat) (j : Int) : Nat := s.smp (s.reg .left) j ss

/-- The bytes of the source block (20_memory.md R72). -/
def State.srcBlk (s : State) (w h : Dim) (tag : Tag) : List Int :=
  blk (s.reg .src) (s.reg .srcs).toNat w.size h.size tag.ss

/-- The bytes of reference block `k` (20_memory.md R72). -/
def State.refBlk (s : State) (k : Nat) (w h : Dim) (tag : Tag) : List Int :=
  blk (s.reg (refReg k)) (s.reg .refs).toNat w.size h.size tag.ss

/-- The bytes of the second predictor (20_memory.md R72). -/
def State.pred2Blk (s : State) (w h : Dim) (tag : Tag) : List Int :=
  blk (s.reg .pred2) w.size w.size h.size tag.ss

/-- The sixteen bytes of `out_sums`, upward (20_memory.md R74). -/
def State.outBytes (s : State) : List Int := idxFrom ((s.reg .out).toNat : Int) 16

/-- The bytes of the destination block (20_memory.md R74). -/
def State.dstBlk (s : State) (n : Dim) (tag : Tag) : List Int :=
  blk (s.reg .dst) (s.reg .dsts).toNat n.size n.size tag.ss

end Sys2Proof.Machine
end

