-- ==== Sys2Proof/Machine/Flags.lean ====
section
/-! DEFINITION. The one flag, STATUS.GT, and STATUS and CAUSE as the words the read port gives (10_state.md R27, R28,
R31). -/

namespace Sys2Proof.Machine

/-- GT after SAD: the exact sum is greater than the bound, unsigned and strict (40_sad.md R145). -/
def gtFlag (exactSum : Nat) (bound : Word) : Bool := decide (bound.toNat < exactSum)

/-- The machine with STATUS.GT written (10_state.md R31). -/
def State.setGt (s : State) (b : Bool) : State := { s with status := { s.status with gt := b } }

/-- STATUS as a word: BUSY bit 0, FAULT bit 1, GT bit 2, the rest 0 (10_state.md R27). -/
def Status.word (st : Status) : Word :=
  BitVec.ofNat 32 (st.busy.toNat + 2 * st.fault.toNat + 4 * st.gt.toNat)

/-- CAUSE as a word: the code of the fault, the rest 0 (10_state.md R28; 60_exceptions.md R241). -/
def Cause.word : Cause → Word
  | .noFault => 0
  | .illegalCmd => 1
  | .misaligned => 2
  | .access => 3
  | .dstStride => 4

end Sys2Proof.Machine
end

