-- ==== Sys2Proof/Machine/Control.lean ====
section
/-! DEFINITION. The register and housekeeping commands NOP, SETLO and SETHI (44_control.md). -/

namespace Sys2Proof.Machine

/-- NOP: retire (44_control.md R231). -/
def execNop (s : State) : Host.Outcome State Fault Refusal := .next s.retire

/-- SETLO: the immediate zero-extended into the register (44_control.md R232, 30_encoding.md R109). -/
def execSetlo (rd : Reg) (imm : BitVec 16) (s : State) : Host.Outcome State Fault Refusal :=
  .next (s.writeReg rd (imm.setWidth 32)).retire

/-- SETHI: the immediate into the upper half, the lower half kept (44_control.md R234). -/
def execSethi (rd : Reg) (imm : BitVec 16) (s : State) : Host.Outcome State Fault Refusal :=
  .next (s.writeReg rd (BitVec.ofNat 32 (imm.toNat * 2 ^ 16 + (s.reg rd).toNat % 2 ^ 16))).retire

end Sys2Proof.Machine
end

