-- ==== Sys2Proof/Machine/Intra.lean ====
section
/-! DEFINITION. The frame every mode of IPRED shares (41_intra_dc.md R170). -/

namespace Sys2Proof.Machine

/-- The indices of the `above` and `left` samples a mode reads (20_memory.md R73); an empty list where the mode does
not read that array at all (41_intra_dc.md R171). -/
structure Neighbours where
  above : List Int
  left : List Int

/-- A predictor: from the samples `above[i]` and `left[j]`, the value at row `r`, column `c`. -/
abbrev Predictor := (Int → Nat) → (Int → Nat) → Nat → Nat → Nat

/-- A neighbour pointer is tested only in a mode that reads the array (60_exceptions.md R243). -/
def neighbourPointer (idx : List Int) (s : State) (tag : Tag) (r : Reg) : List (Word × Nat) :=
  if idx.isEmpty then [] else [samplePointer s tag r]

/-- The operand checks of IPRED (60_exceptions.md R243, R244, R245). -/
def ipredCheck (n : Dim) (tag : Tag) (nb : Neighbours) (s : State) : KernelCheck :=
  { destStride := some (n.size, s.reg .dsts)
    pointers := samplePointer s tag .dst :: (neighbourPointer nb.above s tag .above
      ++ neighbourPointer nb.left s tag .left)
    footprint := s.dstBlk n tag ++ row (s.reg .above) nb.above tag.ss ++ row (s.reg .left) nb.left tag.ss }

/-- The address of the destination sample at row `r`, column `c` (41_intra_dc.md R170). -/
def State.dstAddr (s : State) (ss r c : Nat) : Int := smpAddr (s.reg .dst) (pixIndex (s.reg .dsts).toNat c r) ss

/-- The stores of IPRED, row by row (41_intra_dc.md R170). -/
def ipredStores (n : Dim) (tag : Tag) (pred : Predictor) (s : State) : List (Int × Nat) :=
  (List.range n.size).flatMap (fun r => (List.range n.size).map (fun c =>
    (s.dstAddr tag.ss r c, pred (s.aboveAt tag.ss) (s.leftAt tag.ss) r c)))

/-- IPRED with a mode's neighbours and predictor (41_intra_dc.md R170): every neighbour is read from the state before
(20_memory.md R77), then the block is stored, and nothing else changes. -/
def execIpred (n : Dim) (tag : Tag) (nb : Neighbours) (pred : Predictor) (s : State) :
    Host.Outcome State Fault Refusal :=
  runKernel (ipredCheck n tag nb s) (fun s' => s'.withMem (s'.mem.storeAll tag.ss (ipredStores n tag pred s'))) s

end Sys2Proof.Machine
end

