-- ==== Sys2Proof/Machine/IntraDc.lean ====
section
/-! DEFINITION. The intra predictors DC, DC_LEFT, DC_TOP and DC_128 (41_intra_dc.md). -/

namespace Sys2Proof.Machine

/-- The sum of the samples 0 to `n - 1` of a neighbour array. -/
def sumSamples (n : Nat) (a : Int → Nat) : Nat := sumTo n (fun i => a (i : Int))

/-- DC: the rounded mean of the `above` row and the `left` column (41_intra_dc.md R172). -/
def predDc (n : Nat) : Predictor := fun a l _ _ => rmean (sumSamples n a + sumSamples n l) (2 * n)

/-- DC_LEFT: the rounded mean of the `left` column (41_intra_dc.md R173). -/
def predDcLeft (n : Nat) : Predictor := fun _ l _ _ => rmean (sumSamples n l) n

/-- DC_TOP: the rounded mean of the `above` row (41_intra_dc.md R174). -/
def predDcTop (n : Nat) : Predictor := fun a _ _ _ => rmean (sumSamples n a) n

/-- DC_128: the mid-range constant (41_intra_dc.md R175). -/
def predDc128 (bd : Nat) : Predictor := fun _ _ _ _ => 2 ^ (bd - 1)

/-- What DC reads (20_memory.md R73). -/
def readsDc (n : Nat) : Neighbours := { above := idxFrom 0 n, left := idxFrom 0 n }

/-- What DC_LEFT reads (20_memory.md R73). -/
def readsDcLeft (n : Nat) : Neighbours := { above := [], left := idxFrom 0 n }

/-- What DC_TOP reads (20_memory.md R73). -/
def readsDcTop (n : Nat) : Neighbours := { above := idxFrom 0 n, left := [] }

/-- What DC_128 reads: nothing (20_memory.md R73). -/
def readsDc128 : Neighbours := { above := [], left := [] }

/-- IPRED.DC (41_intra_dc.md R172). -/
def execIpredDc (n : Dim) (tag : Tag) (s : State) : Host.Outcome State Fault Refusal :=
  execIpred n tag (readsDc n.size) (predDc n.size) s

/-- IPRED.DC_LEFT (41_intra_dc.md R173). -/
def execIpredDcLeft (n : Dim) (tag : Tag) (s : State) : Host.Outcome State Fault Refusal :=
  execIpred n tag (readsDcLeft n.size) (predDcLeft n.size) s

/-- IPRED.DC_TOP (41_intra_dc.md R174). -/
def execIpredDcTop (n : Dim) (tag : Tag) (s : State) : Host.Outcome State Fault Refusal :=
  execIpred n tag (readsDcTop n.size) (predDcTop n.size) s

/-- IPRED.DC_128 (41_intra_dc.md R175). -/
def execIpredDc128 (n : Dim) (tag : Tag) (s : State) : Host.Outcome State Fault Refusal :=
  execIpred n tag readsDc128 (predDc128 tag.bd) s

end Sys2Proof.Machine
end

