-- ==== Sys2Proof/Machine/IntraDirectional.lean ====
section
/-! DEFINITION. The directional intra predictors D45, D117 and D135 (42_intra_directional.md; the tap positions are
UNVERIFIED, log 11). -/

namespace Sys2Proof.Machine

/-- The edge array `g`: the `left` column reversed, the corner, the `above` row (42_intra_directional.md R191). -/
def edge (a l : Int → Nat) (i : Int) : Nat := if -1 ≤ i then a i else l (-2 - i)

/-- D45, with the edge policy of reading A (42_intra_directional.md R192, R193; log 11). -/
def predD45 (n : Nat) : Predictor := fun a _ r c =>
  if r + c + 2 < Config.d45AboveExtent n then
    avg3 (a ((r + c : Nat) : Int)) (a ((r + c + 1 : Nat) : Int)) (a ((r + c + 2 : Nat) : Int))
  else a ((Config.d45AboveExtent n - 1 : Nat) : Int)

/-- D117 (42_intra_directional.md R194). -/
def predD117 : Predictor := fun a l r c =>
  if r / 2 ≤ c then
    let k : Int := (c : Int) - ((r / 2 : Nat) : Int)
    if r % 2 = 0 then avg2 (edge a l (k - 1)) (edge a l k)
    else avg3 (edge a l (k - 2)) (edge a l (k - 1)) (edge a l k)
  else
    let q : Int := (r : Int) - 2 * (c : Int)
    avg3 (edge a l (-q + 1)) (edge a l (-q)) (edge a l (-q - 1))

/-- D135 (42_intra_directional.md R196). -/
def predD135 : Predictor := fun a l r c =>
  let d : Int := (c : Int) - (r : Int) - 1
  avg3 (edge a l (d - 1)) (edge a l d) (edge a l (d + 1))

/-- What D45 reads (20_memory.md R73). -/
def readsD45 (n : Nat) : Neighbours := { above := idxFrom 0 (Config.d45AboveExtent n), left := [] }

/-- What D117 reads: the corner, the `above` row, and `left` without its last sample (20_memory.md R73). -/
def readsD117 (n : Nat) : Neighbours := { above := idxFrom (-1) (n + 1), left := idxFrom 0 (n - 1) }

/-- What D135 reads (20_memory.md R73). -/
def readsD135 (n : Nat) : Neighbours := { above := idxFrom (-1) (n + 1), left := idxFrom 0 n }

/-- IPRED.D45 (42_intra_directional.md R192). -/
def execIpredD45 (n : Dim) (tag : Tag) (s : State) : Host.Outcome State Fault Refusal :=
  execIpred n tag (readsD45 n.size) (predD45 n.size) s

/-- IPRED.D117 (42_intra_directional.md R194). -/
def execIpredD117 (n : Dim) (tag : Tag) (s : State) : Host.Outcome State Fault Refusal :=
  execIpred n tag (readsD117 n.size) predD117 s

/-- IPRED.D135 (42_intra_directional.md R196). -/
def execIpredD135 (n : Dim) (tag : Tag) (s : State) : Host.Outcome State Fault Refusal :=
  execIpred n tag (readsD135 n.size) predD135 s

end Sys2Proof.Machine
end

