-- ==== Sys2Proof/Machine/IntraVHTm.lean ====
section
/-! DEFINITION. The intra predictors V, H and TM (43_intra_v_h_tm.md). -/

namespace Sys2Proof.Machine

/-- V: the `above` row in every row, verbatim (43_intra_v_h_tm.md R211). -/
def predV : Predictor := fun a _ _ c => a (c : Int)

/-- H: the `left` column in every column, verbatim (43_intra_v_h_tm.md R212). -/
def predH : Predictor := fun _ l r _ => l (r : Int)

/-- TM: extrapolation from the corner on signed integers, saturated to `0` to `maxv` (43_intra_v_h_tm.md R213). -/
def predTm (maxv : Nat) : Predictor := fun a l r c =>
  (clamp ((a (c : Int) : Int) + (l (r : Int) : Int) - (a (-1) : Int)) 0 (maxv : Int)).toNat

/-- What V reads (20_memory.md R73). -/
def readsV (n : Nat) : Neighbours := { above := idxFrom 0 n, left := [] }

/-- What H reads (20_memory.md R73). -/
def readsH (n : Nat) : Neighbours := { above := [], left := idxFrom 0 n }

/-- What TM reads (20_memory.md R73). -/
def readsTm (n : Nat) : Neighbours := { above := idxFrom (-1) (n + 1), left := idxFrom 0 n }

/-- IPRED.V (43_intra_v_h_tm.md R211). -/
def execIpredV (n : Dim) (tag : Tag) (s : State) : Host.Outcome State Fault Refusal :=
  execIpred n tag (readsV n.size) predV s

/-- IPRED.H (43_intra_v_h_tm.md R212). -/
def execIpredH (n : Dim) (tag : Tag) (s : State) : Host.Outcome State Fault Refusal :=
  execIpred n tag (readsH n.size) predH s

/-- IPRED.TM (43_intra_v_h_tm.md R213). -/
def execIpredTm (n : Dim) (tag : Tag) (s : State) : Host.Outcome State Fault Refusal :=
  execIpred n tag (readsTm n.size) (predTm tag.maxv) s

end Sys2Proof.Machine
end

