-- ==== Sys2Proof/Machine/Sad.lean ====
section
/-! DEFINITION. The SAD family: SAD, SADX4 and SADAVG (40_sad.md). -/

namespace Sys2Proof.Machine

/-- The sum of row `y` of the absolute differences against reference block `k` (40_sad.md R140, R144). -/
def State.rowSum (s : State) (k w ss y : Nat) : Nat :=
  sumTo w (fun x => absdiff (s.srcAt ss x y) (s.refAt k ss x y))

/-- `S_k`, the exact sum against reference block `k` (40_sad.md R140). -/
def State.exactSum (s : State) (k w h ss : Nat) : Nat := sumTo h (fun y => s.rowSum k w ss y)

/-- `P(m)` from the running sum `p` over the row sums still to come: the test is made once a row, after the whole row,
and is strict (40_sad.md R144). -/
def rowPartialFrom (m : Nat) : Nat → List Nat → Nat
  | p, [] => p
  | p, r :: rs => if m < p + r then p + r else rowPartialFrom m (p + r) rs

/-- `P(m)`, the row-granular partial sum (40_sad.md R144). -/
def State.rowPartial (s : State) (w h ss m : Nat) : Nat :=
  rowPartialFrom m 0 ((List.range h).map (fun y => s.rowSum 0 w ss y))

/-- A value not below `m` and below `2 ^ 32`, any such value for some draw (40_sad.md R144, `any_admitted`). -/
def drawFrom (m draw : Nat) : Nat := m + draw % (2 ^ 32 - m)

/-- The policy leaves the value open: `any_admitted`, and the exact sum exceeds the bound (40_sad.md R144). -/
def drawNeeded (p : SadExit) (exactSum : Nat) (bound : Word) : Bool :=
  decide (p = .anyAdmitted) && gtFlag exactSum bound

/-- `Result(S, m)` for each policy (40_sad.md R144). -/
def sadResult (p : SadExit) (exactSum rowPartial : Nat) (bound draw : Word) : Nat :=
  match p with
  | .exact => exactSum
  | .rowPartial => rowPartial
  | .anyAdmitted => if exactSum ≤ bound.toNat then exactSum else drawFrom bound.toNat draw.toNat

/-- The operand checks of SAD (60_exceptions.md R243, R245). -/
def sadCheck (w h : Dim) (tag : Tag) (s : State) : KernelCheck :=
  { destStride := none
    pointers := [samplePointer s tag .src, samplePointer s tag .ref0]
    footprint := s.srcBlk w h tag ++ s.refBlk 0 w h tag }

/-- What SAD writes: SUM and GT (40_sad.md R142); a draw, if the policy needs one, is counted (log 6). -/
def sadEffect (w h : Dim) (tag : Tag) (s : State) : State :=
  let exactSum := s.exactSum 0 w.size h.size tag.ss
  let bound := s.reg .maxsad
  let result := sadResult s.platform.sadExit exactSum (s.rowPartial w.size h.size tag.ss bound.toNat) bound
    (Config.sadDraw s.draws)
  let s' := (s.writeReg .sum (BitVec.ofNat 32 result)).setGt (gtFlag exactSum bound)
  { s' with draws := if drawNeeded s.platform.sadExit exactSum bound then s.draws + 1 else s.draws }

/-- SAD (40_sad.md R142). -/
def execSad (w h : Dim) (tag : Tag) (s : State) : Host.Outcome State Fault Refusal :=
  runKernel (sadCheck w h tag s) (sadEffect w h tag) s

/-- The operand checks of SADX4; OUT is tested at every tag (60_exceptions.md R243, R245). -/
def sadx4Check (w h : Dim) (tag : Tag) (s : State) : KernelCheck :=
  { destStride := none
    pointers := [samplePointer s tag .src, samplePointer s tag .ref0, samplePointer s tag .ref1,
      samplePointer s tag .ref2, samplePointer s tag .ref3, (s.reg .out, 4)]
    footprint := s.srcBlk w h tag ++ s.refBlk 0 w h tag ++ s.refBlk 1 w h tag ++ s.refBlk 2 w h tag
      ++ s.refBlk 3 w h tag ++ s.outBytes }

/-- The four words SADX4 stores, in order (40_sad.md R147, R148). -/
def sadx4Stores (w h : Dim) (tag : Tag) (s : State) : List (Int × Nat) :=
  (List.range 4).map (fun k : Nat =>
    (((s.reg .out).toNat : Int) + 4 * (k : Int), s.exactSum k w.size h.size tag.ss))

/-- SADX4 (40_sad.md R147). -/
def execSadx4 (w h : Dim) (tag : Tag) (s : State) : Host.Outcome State Fault Refusal :=
  runKernel (sadx4Check w h tag s) (fun s' => s'.withMem (s'.mem.storeAll 4 (sadx4Stores w h tag s'))) s

/-- `T`, the sum against the rounded average of the reference block and the second predictor (40_sad.md R150, R151). -/
def State.averagedSum (s : State) (w h ss : Nat) : Nat :=
  sumTo h (fun y => sumTo w (fun x => absdiff (s.srcAt ss x y) (avg2 (s.refAt 0 ss x y) (s.pred2At w ss x y))))

/-- The operand checks of SADAVG (60_exceptions.md R243, R245). -/
def sadavgCheck (w h : Dim) (tag : Tag) (s : State) : KernelCheck :=
  { destStride := none
    pointers := [samplePointer s tag .src, samplePointer s tag .ref0, samplePointer s tag .pred2]
    footprint := s.srcBlk w h tag ++ s.refBlk 0 w h tag ++ s.pred2Blk w h tag }

/-- SADAVG (40_sad.md R150). -/
def execSadavg (w h : Dim) (tag : Tag) (s : State) : Host.Outcome State Fault Refusal :=
  runKernel (sadavgCheck w h tag s)
    (fun s' => s'.writeReg .sum (BitVec.ofNat 32 (s'.averagedSum w.size h.size tag.ss))) s

end Sys2Proof.Machine
end

