-- ==== Sys2Proof/Machine/Dispatch.lean ====
section
/-! DEFINITION. The meaning of each instruction: one arm per constructor, one direct call each. -/

namespace Sys2Proof.Machine

/-- What an accepted instruction does (20_memory.md R77). -/
def exec (i : Instr) (s : State) : Host.Outcome State Fault Refusal :=
  match i with
  | .nop => Sys2Proof.Machine.execNop s
  | .setlo rd imm => Sys2Proof.Machine.execSetlo rd imm s
  | .sethi rd imm => Sys2Proof.Machine.execSethi rd imm s
  | .sad w h tag => Sys2Proof.Machine.execSad w h tag s
  | .sadx4 w h tag => Sys2Proof.Machine.execSadx4 w h tag s
  | .sadavg w h tag => Sys2Proof.Machine.execSadavg w h tag s
  | .ipredDc n tag => Sys2Proof.Machine.execIpredDc n tag s
  | .ipredDcLeft n tag => Sys2Proof.Machine.execIpredDcLeft n tag s
  | .ipredDcTop n tag => Sys2Proof.Machine.execIpredDcTop n tag s
  | .ipredDc128 n tag => Sys2Proof.Machine.execIpredDc128 n tag s
  | .ipredV n tag => Sys2Proof.Machine.execIpredV n tag s
  | .ipredH n tag => Sys2Proof.Machine.execIpredH n tag s
  | .ipredTm n tag => Sys2Proof.Machine.execIpredTm n tag s
  | .ipredD45 n tag => Sys2Proof.Machine.execIpredD45 n tag s
  | .ipredD117 n tag => Sys2Proof.Machine.execIpredD117 n tag s
  | .ipredD135 n tag => Sys2Proof.Machine.execIpredD135 n tag s

end Sys2Proof.Machine
end

