-- ==== Sys2Proof/Machine/HostPort.lean ====
section
/-! DEFINITION. The command port, the read port and the host's other actions (10_state.md R37 to R42). -/

namespace Sys2Proof.Machine

/-- The select is one whose value is unspecified while BUSY is 1 (10_state.md R41; 93_implementation_defined.md U7). -/
def selectVolatile (sel : BitVec 5) : Bool :=
  decide (sel.toNat = 14) || (decide (16 ≤ sel.toNat) && decide (sel.toNat ≤ 19))

/-- What the register behind a select holds (10_state.md R41, the table). -/
def State.selected (s : State) (sel : BitVec 5) : Word :=
  match Reg.ofNumber? sel.toNat with
  | some r => s.reg r
  | none =>
    match sel.toNat with
    | 16 => s.status.word
    | 17 => s.cause.word
    | 18 => s.finfo
    | 19 => s.ccnt
    | _ => 0

/-- The read port for a select (10_state.md R41); while BUSY is 1, which no step leaves, a FREE VALUE for the volatile
selects (log 8). -/
def State.readPort (s : State) (sel : BitVec 5) : Word :=
  if s.status.busy && selectVolatile sel then Config.readWhileBusy s.draws sel else s.selected sel

/-- The output `rd_data` (10_state.md R37). -/
def State.rdData (s : State) : Word := s.readPort s.rdSel

/-- What an action of the host returns to it: the selected register, or the byte read (10_state.md R42). -/
def HostAction.returned (s : State) : HostAction → Option Word
  | .command _ => none
  | .readPort sel => some (s.readPort sel)
  | .reset => none
  | .resetDuring _ => none
  | .readMemory a => some ((s.mem.read a.toNat).setWidth 32)
  | .writeMemory _ _ => none

/-- The action offers a command. -/
def HostAction.isCommand : HostAction → Bool
  | .command _ => true
  | .readPort _ => false
  | .reset => false
  | .resetDuring _ => false
  | .readMemory _ => false
  | .writeMemory _ _ => false

/-- The actions that can still take place. A command offered while `cmd_ready` is 0 is not accepted and has no step
(10_state.md R38, R42): the offers before the host's next other action are passed over (log 2). -/
def State.nextActions (s : State) : List HostAction :=
  if s.ready then s.host else s.host.dropWhile HostAction.isCommand

/-- An accepted command word: decoded and executed, or ILLEGAL_CMD with FINFO the word (10_state.md R38, R39;
30_encoding.md R116; 60_exceptions.md R242). -/
def runCommand (w : Word) (s : State) : Host.Outcome State Fault Refusal :=
  match decode w with
  | .ok i => exec i s.accept
  | .error _ => .next (s.accept.raise .illegalCmd w)

/-- HostReset while the command `w`, offered just before, is executing (70_reset_and_hazards.md R281): the command is
abandoned, each byte it would have written holds its old or its new value by a FREE VALUE (log 7), and the core is
reset. With `cmd_ready` 0 there is no command to abandon. -/
def State.abandon (s : State) (w : Word) : State :=
  if s.ready then
    match runCommand w s with
    | .next t =>
      ({ s with mem := s.mem.mix t.mem (Config.abandonedByteWritten s.draws), draws := s.draws + 1 } : State).resetCore
    | .fault _ => s.resetCore
    | .refused _ => s.resetCore
  else s.resetCore

/-- One action of the host (10_state.md R42). -/
def hostStep (a : HostAction) (s : State) : Host.Outcome State Fault Refusal :=
  match a with
  | .command w => runCommand w s
  | .readPort sel => .next { s with rdSel := sel }
  | .reset => .next s.resetCore
  | .resetDuring w => .next (s.abandon w)
  | .readMemory x => if s.platform.mapped x.toNat then .next s else .fault (.hostAccessUnmapped x)
  | .writeMemory x b =>
    if s.platform.mapped x.toNat then .next (s.withMem (s.mem.write x.toNat b)) else .fault (.hostAccessUnmapped x)

end Sys2Proof.Machine
end

