-- ==== Sys2Proof/Machine/Step.lean ====
section
/-! DEFINITION. One step of the machine: the host's next action takes place (10_state.md R39, R42). -/

namespace Sys2Proof.Machine

/-- The host's next action takes place. With no action to come the core is idle and nothing changes (60_exceptions.md
R260; log 3). With only commands offered to a core that is not ready there is no step (10_state.md R42; log 2). -/
def step (s : State) : Host.Outcome State Fault Refusal :=
  match s.nextActions with
  | a :: rest => hostStep a { s with host := rest }
  | [] => if s.host.isEmpty then .next s else .fault .commandStreamStuck

/-- The machine whose host offers next the command word of the `nbits` low bits of `w` (log 1): the core fetches
nothing, so this stands for placing an instruction where the next one comes from. -/
def State.withFetchWord (s : State) (nbits w : Nat) : State :=
  { s with host := .command (BitVec.ofNat 32 (w % 2 ^ nbits)) :: s.host }

end Sys2Proof.Machine
end

