-- ==== Sys2Proof/Machine/Assembler.lean ====
section
/-! DEFINITION. The assembler syntax of the commands and the pseudo-instruction `li` (30_encoding.md R117 to R119). No
step uses it: it gives the command words of a line of text. -/

namespace Sys2Proof

/-- The expansion of `li rd, imm32`: SETLO, and SETHI only when the upper half is not zero (30_encoding.md R119). -/
def assembleLi (rd : Reg) (v : Word) : List Instr :=
  let lo := Instr.setlo rd (v.extractLsb' 0 16)
  let hi := v.extractLsb' 16 16
  if hi = 0 then [lo] else [lo, .sethi rd hi]

/-- The name of a register in lower case (30_encoding.md R118, 10_state.md R22). -/
def Reg.name : Reg → String
  | .src => "src"
  | .srcs => "srcs"
  | .ref0 => "ref0"
  | .ref1 => "ref1"
  | .ref2 => "ref2"
  | .ref3 => "ref3"
  | .refs => "refs"
  | .maxsad => "maxsad"
  | .pred2 => "pred2"
  | .out => "out"
  | .dst => "dst"
  | .dsts => "dsts"
  | .above => "above"
  | .left => "left"
  | .sum => "sum"

/-- The registers in number order. -/
def Reg.all : List Reg :=
  [.src, .srcs, .ref0, .ref1, .ref2, .ref3, .refs, .maxsad, .pred2, .out, .dst, .dsts, .above, .left, .sum]

/-- The value of a digit in a base, lower case. -/
def digitValue? (base : Nat) (c : Char) : Option Nat :=
  let n := c.toNat
  let d := if 48 ≤ n ∧ n ≤ 57 then n - 48 else if 97 ≤ n ∧ n ≤ 122 then n - 87 else 99
  if d < base then some d else none

/-- The number the digits stand for, leading zeros allowed (DESIGN CHOICE, log 16), after the value `acc` read so far. -/
def digits? (base : Nat) : Nat → List Char → Option Nat
  | acc, [] => some acc
  | acc, c :: cs =>
    match digitValue? base c with
    | some d => digits? base (acc * base + d) cs
    | none => none

/-- A decimal number, at least one digit. -/
def decimal? : List Char → Option Nat
  | [] => none
  | c :: cs => digits? 10 0 (c :: cs)

/-- A decimal number or a hexadecimal one after `0x` (30_encoding.md R117), on text in lower case already (the case of
the prefix and of the digits: DESIGN CHOICE, log 16). -/
def number? : List Char → Option Nat
  | '0' :: 'x' :: c :: cs => digits? 16 0 (c :: cs)
  | cs => decimal? cs

/-- A register operand: `x0` to `x14`, or a name (30_encoding.md R118). -/
def register? (t : List Char) : Option Reg :=
  match Reg.all.find? (fun r => decide (r.name.toList = t)) with
  | some r => some r
  | none =>
    match t with
    | 'x' :: cs =>
      match decimal? cs with
      | some k => Reg.ofNumber? k
      | none => none
    | _ => none

/-- The size a decimal number names. -/
def Dim.ofSize? (k : Nat) : Option Dim :=
  [Dim.d4, Dim.d8, Dim.d16, Dim.d32, Dim.d64].find? (fun d => decide (d.size = k))

/-- A shape `WxH`, decimal (30_encoding.md R117). -/
def shape? (t : List Char) : Option (Dim × Dim) :=
  match decimal? (t.takeWhile (fun c => decide (c ≠ 'x'))), decimal? ((t.dropWhile (fun c => decide (c ≠ 'x'))).drop 1) with
  | some w, some h =>
    match Dim.ofSize? w, Dim.ofSize? h with
    | some dw, some dh => some (dw, dh)
    | _, _ => none
  | _, _ => none

/-- A tag name (30_encoding.md R117). -/
def tag? (t : List Char) : Option Tag :=
  match String.ofList t with
  | "b8" => some .b8
  | "h8" => some .h8
  | "h10" => some .h10
  | "h12" => some .h12
  | _ => none

/-- An immediate below the bound. -/
def imm? (bound : Nat) (t : List Char) : Option Nat :=
  match number? t with
  | some k => if k < bound then some k else none
  | none => none

/-- An admitted intra command: a square block (30_encoding.md R113, R117). -/
def assembleIpred (mk : Dim → Tag → Instr) : List (List Char) → Option (List Instr)
  | [sh, [','], tg] =>
    match shape? sh, tag? tg with
    | some (w, h), some t => if w = h then some [mk w t] else none
    | _, _ => none
  | _ => none

/-- A SAD command. -/
def assembleSad (mk : Dim → Dim → Tag → Instr) : List (List Char) → Option (List Instr)
  | [sh, [','], tg] =>
    match shape? sh, tag? tg with
    | some (w, h), some t => some [mk w h t]
    | _, _ => none
  | _ => none

/-- A register command with an immediate below the bound. -/
def assembleSet (bound : Nat) (mk : Reg → Nat → List Instr) : List (List Char) → Option (List Instr)
  | [rd, [','], im] =>
    match register? rd, imm? bound im with
    | some r, some v => some (mk r v)
    | _, _ => none
  | _ => none

/-- The commands of a mnemonic with its operand tokens (30_encoding.md R117, R119). -/
def assembleOp (op : String) (args : List (List Char)) : Option (List Instr) :=
  match op with
  | "nop" => if args.isEmpty then some [.nop] else none
  | "setlo" => assembleSet (2 ^ 16) (fun r v => [.setlo r (BitVec.ofNat 16 v)]) args
  | "sethi" => assembleSet (2 ^ 16) (fun r v => [.sethi r (BitVec.ofNat 16 v)]) args
  | "li" => assembleSet (2 ^ 32) (fun r v => assembleLi r (BitVec.ofNat 32 v)) args
  | "sad" => assembleSad .sad args
  | "sadx4" => assembleSad .sadx4 args
  | "sadavg" => assembleSad .sadavg args
  | "ipred.dc" => assembleIpred .ipredDc args
  | "ipred.dcleft" => assembleIpred .ipredDcLeft args
  | "ipred.dctop" => assembleIpred .ipredDcTop args
  | "ipred.dc128" => assembleIpred .ipredDc128 args
  | "ipred.v" => assembleIpred .ipredV args
  | "ipred.h" => assembleIpred .ipredH args
  | "ipred.tm" => assembleIpred .ipredTm args
  | "ipred.d45" => assembleIpred .ipredD45 args
  | "ipred.d117" => assembleIpred .ipredD117 args
  | "ipred.d135" => assembleIpred .ipredD135 args
  | _ => none

/-- The tokens of a text after the token `cur`, read backwards so far: spaces and tabs separate, a comma is a token
(DESIGN CHOICE, log 16). -/
def tokensFrom : List Char → List Char → List (List Char)
  | cur, [] => if cur.isEmpty then [] else [cur.reverse]
  | cur, c :: cs =>
    if c = ' ' ∨ c = '\t' then (if cur.isEmpty then tokensFrom [] cs else cur.reverse :: tokensFrom [] cs)
    else if c = ',' then (if cur.isEmpty then [','] :: tokensFrom [] cs else cur.reverse :: [','] :: tokensFrom [] cs)
    else tokensFrom (c :: cur) cs

/-- The tokens of a line, its comment left out, in lower case. That mnemonics and names are case-insensitive is
30_encoding.md R117; that the whole line is lower-cased, so that the prefix `0x`, the hexadecimal digits and the `x` of
a shape are read in either case too, is a DESIGN CHOICE where the rule is silent (log 16). -/
def lineTokens (line : String) : List (List Char) :=
  tokensFrom [] ((line.toList.takeWhile (fun c => decide (c ≠ '#'))).map Char.toLower)

/-- The command words of a line, `none` where an assembler rejects it: what decoding calls illegal is rejected
(30_encoding.md R117). A line of no token has no command (DESIGN CHOICE, log 16). -/
def assembleLine (line : String) : Option (List Word) :=
  match lineTokens line with
  | [] => some []
  | op :: args =>
    match assembleOp (String.ofList op) args with
    | some is => if is.all Instr.wellFormed then some (is.map encode) else none
    | none => none

end Sys2Proof
end

