-- ==== Sys2Proof/Safety.lean ====
section
/-! DEFINITION. The terms the claims are stated in: the invariant of the machine, when a command's operands are in
order, and the spec's own tables of which command reads, tests and touches what. -/

namespace Sys2Proof

/-- The commands that touch memory: the SAD family and IPRED (10_state.md R33). -/
def Instr.isKernel : Instr → Bool
  | .nop => false
  | .setlo _ _ => false
  | .sethi _ _ => false
  | .sad _ _ _ => true
  | .sadx4 _ _ _ => true
  | .sadavg _ _ _ => true
  | .ipredDc _ _ => true
  | .ipredDcLeft _ _ => true
  | .ipredDcTop _ _ => true
  | .ipredDc128 _ _ => true
  | .ipredV _ _ => true
  | .ipredH _ _ => true
  | .ipredTm _ _ => true
  | .ipredD45 _ _ => true
  | .ipredD117 _ _ => true
  | .ipredD135 _ _ => true

/-- The commands that return their result in SUM (10_state.md R21). -/
def Instr.writesSum : Instr → Bool
  | .sad _ _ _ => true
  | .sadavg _ _ _ => true
  | _ => false

/-- The side of the destination block, for an intra command (41_intra_dc.md R170). -/
def Instr.destSide? : Instr → Option Dim
  | .ipredDc n _ => some n
  | .ipredDcLeft n _ => some n
  | .ipredDcTop n _ => some n
  | .ipredDc128 n _ => some n
  | .ipredV n _ => some n
  | .ipredH n _ => some n
  | .ipredTm n _ => some n
  | .ipredD45 n _ => some n
  | .ipredD117 n _ => some n
  | .ipredD135 n _ => some n
  | _ => none

/-- The registers a kernel command reads: the last column of the table of 10_state.md R22. -/
def Instr.readsRegs : Instr → List Reg
  | .nop => []
  | .setlo _ _ => []
  | .sethi rd _ => [rd]
  | .sad _ _ _ => [.src, .srcs, .ref0, .refs, .maxsad]
  | .sadx4 _ _ _ => [.src, .srcs, .ref0, .ref1, .ref2, .ref3, .refs, .out]
  | .sadavg _ _ _ => [.src, .srcs, .ref0, .refs, .pred2]
  | .ipredDc _ _ => [.dst, .dsts, .above, .left]
  | .ipredDcLeft _ _ => [.dst, .dsts, .left]
  | .ipredDcTop _ _ => [.dst, .dsts, .above]
  | .ipredDc128 _ _ => [.dst, .dsts]
  | .ipredV _ _ => [.dst, .dsts, .above]
  | .ipredH _ _ => [.dst, .dsts, .left]
  | .ipredTm _ _ => [.dst, .dsts, .above, .left]
  | .ipredD45 _ _ => [.dst, .dsts, .above]
  | .ipredD117 _ _ => [.dst, .dsts, .above, .left]
  | .ipredD135 _ _ => [.dst, .dsts, .above, .left]

/-- The pointers a kernel command tests, in order, each with the multiple it must be: the table of 60_exceptions.md
R243. A sample pointer must be a multiple of the sample size, which is no test for `b8`. -/
def Instr.pointerTests : Instr → List (Reg × Nat)
  | .nop => []
  | .setlo _ _ => []
  | .sethi _ _ => []
  | .sad _ _ t => [(.src, t.ss), (.ref0, t.ss)]
  | .sadx4 _ _ t => [(.src, t.ss), (.ref0, t.ss), (.ref1, t.ss), (.ref2, t.ss), (.ref3, t.ss), (.out, 4)]
  | .sadavg _ _ t => [(.src, t.ss), (.ref0, t.ss), (.pred2, t.ss)]
  | .ipredDc _ t => [(.dst, t.ss), (.above, t.ss), (.left, t.ss)]
  | .ipredDcLeft _ t => [(.dst, t.ss), (.left, t.ss)]
  | .ipredDcTop _ t => [(.dst, t.ss), (.above, t.ss)]
  | .ipredDc128 _ t => [(.dst, t.ss)]
  | .ipredV _ t => [(.dst, t.ss), (.above, t.ss)]
  | .ipredH _ t => [(.dst, t.ss), (.left, t.ss)]
  | .ipredTm _ t => [(.dst, t.ss), (.above, t.ss), (.left, t.ss)]
  | .ipredD45 _ t => [(.dst, t.ss), (.above, t.ss)]
  | .ipredD117 _ t => [(.dst, t.ss), (.above, t.ss), (.left, t.ss)]
  | .ipredD135 _ t => [(.dst, t.ss), (.above, t.ss), (.left, t.ss)]

end Sys2Proof

namespace Sys2Proof.Machine

/-! ### The invariant -/

/-- CAUSE and FINFO say nothing while the core is not in the fault state, and CAUSE names a fault while it is
(10_state.md R28, R29; 60_exceptions.md R246). -/
abbrev State.FaultRecordOk (s : State) : Prop :=
  (s.status.fault = false → s.cause = .noFault ∧ s.finfo = 0) ∧ (s.status.fault = true → s.cause ≠ .noFault)

/-- The invariant of the machine between steps: no command is executing (10_state.md R27), the fault record is
consistent, and memory is in its canonical form. -/
abbrev State.Inv (s : State) : Prop := s.status.busy = false ∧ s.FaultRecordOk ∧ s.mem.wf

/-! ### Operands in order -/

/-- The block at pointer `p` passes the checks of a command: `p` is a multiple of the sample size (20_memory.md R68),
and every byte of its `w * h` samples is in range and mapped (R70, R76). -/
abbrev State.BlockOk (s : State) (tag : Tag) (p : Word) (stride w h : Nat) : Prop :=
  p.toNat % tag.ss = 0 ∧ ∀ y < h, ∀ x < w, ∀ k < tag.ss,
    s.platform.accessible ((p.toNat + (y * stride + x) * tag.ss + k : Nat) : Int) = true

/-- The `n` samples from index `lo` of the contiguous array at pointer `p` pass the checks of a command
(20_memory.md R68, R71, R76). -/
abbrev State.RowOk (s : State) (tag : Tag) (p : Word) (lo : Int) (n : Nat) : Prop :=
  p.toNat % tag.ss = 0 ∧ ∀ j < n, ∀ k < tag.ss,
    s.platform.accessible ((p.toNat : Int) + (lo + (j : Int)) * (tag.ss : Int) + (k : Int)) = true

/-- The destination block passes the checks of a command, its stride included (60_exceptions.md R244). -/
abbrev State.DestOk (s : State) (n : Dim) (tag : Tag) : Prop :=
  n.size ≤ (s.reg .dsts).toNat ∧ s.BlockOk tag (s.reg .dst) (s.reg .dsts).toNat n.size n.size

/-- The source block and reference block `k` pass the checks. -/
abbrev State.SrcRefOk (s : State) (k : Nat) (w h : Dim) (tag : Tag) : Prop :=
  s.BlockOk tag (s.reg .src) (s.reg .srcs).toNat w.size h.size ∧
    s.BlockOk tag (s.reg (refReg k)) (s.reg .refs).toNat w.size h.size

/-! ### What a command did -/

/-- `t` is `s` after a command that retired and changed nothing but memory: every register, flag and control register
as before but for CCNT, one more, and BUSY, cleared (41_intra_dc.md R170; 10_state.md R30). -/
abbrev RetiredMemoryOnly (s t : State) : Prop :=
  t = { s with mem := t.mem, ccnt := s.ccnt + 1, status := { s.status with busy := false } }

/-- The byte address `a` is one of the destination block (20_memory.md R74). -/
abbrev State.InDest (s : State) (n : Dim) (tag : Tag) (a : Nat) : Prop :=
  ∃ r < n.size, ∃ c < n.size, ∃ k < tag.ss,
    a = (s.reg .dst).toNat + (r * (s.reg .dsts).toNat + c) * tag.ss + k

/-- `t` is `s` after an intra command that retired: sample `(c, r)` of the destination block is `pred r c`, every byte
outside the block is as before, and nothing else changed (41_intra_dc.md R170, 20_memory.md R75). -/
abbrev PredictedBlock (s t : State) (n : Dim) (tag : Tag) (pred : Nat → Nat → Nat) : Prop :=
  RetiredMemoryOnly s t ∧
    (∀ r < n.size, ∀ c < n.size, t.mem.readLE
      (((s.reg .dst).toNat + (r * (s.reg .dsts).toNat + c) * tag.ss : Nat) : Int) tag.ss = pred r c) ∧
    (∀ a : Nat, ¬ s.InDest n tag a → t.mem.read a = s.mem.read a)

/-- The state after the commands of a list, none if one of them does not answer a next state. -/
def execAll : List Instr → State → Option State
  | [], s => some s
  | i :: is, s =>
    match exec i s with
    | .next t => execAll is t
    | .fault _ => none
    | .refused _ => none

/-- The host offers `w` next to a core that is ready. -/
abbrev State.Offered (s : State) (w : Word) (rest : List HostAction) : Prop :=
  s.ready = true ∧ s.host = .command w :: rest

/-- `t` is `s` after a command took the fault: STATUS.FAULT 1, STATUS.BUSY 0, CAUSE and FINFO recorded, and nothing
else changed (60_exceptions.md R246). -/
abbrev Faulted (s t : State) (c : Cause) (info : Word) : Prop :=
  t = { s with status := { s.status with fault := true, busy := false }, cause := c, finfo := info }

/-! ### Footprints -/

/-- The bytes of the neighbours a mode reads, `above` first (20_memory.md R73). -/
def neighbourBytes (s : State) (tag : Tag) (nb : Neighbours) : List Int :=
  row (s.reg .above) nb.above tag.ss ++ row (s.reg .left) nb.left tag.ss

/-- The read footprint of a command (20_memory.md R72, R73). -/
def readFootprint (s : State) : Instr → List Int
  | .nop => []
  | .setlo _ _ => []
  | .sethi _ _ => []
  | .sad w h t => s.srcBlk w h t ++ s.refBlk 0 w h t
  | .sadx4 w h t => s.srcBlk w h t ++ s.refBlk 0 w h t ++ s.refBlk 1 w h t ++ s.refBlk 2 w h t ++ s.refBlk 3 w h t
  | .sadavg w h t => s.srcBlk w h t ++ s.refBlk 0 w h t ++ s.pred2Blk w h t
  | .ipredDc n t => neighbourBytes s t { above := idxFrom 0 n.size, left := idxFrom 0 n.size }
  | .ipredDcLeft n t => neighbourBytes s t { above := [], left := idxFrom 0 n.size }
  | .ipredDcTop n t => neighbourBytes s t { above := idxFrom 0 n.size, left := [] }
  | .ipredDc128 _ _ => []
  | .ipredV n t => neighbourBytes s t { above := idxFrom 0 n.size, left := [] }
  | .ipredH n t => neighbourBytes s t { above := [], left := idxFrom 0 n.size }
  | .ipredTm n t => neighbourBytes s t { above := idxFrom (-1) (n.size + 1), left := idxFrom 0 n.size }
  | .ipredD45 n t => neighbourBytes s t { above := idxFrom 0 (2 * n.size), left := [] }
  | .ipredD117 n t => neighbourBytes s t { above := idxFrom (-1) (n.size + 1), left := idxFrom 0 (n.size - 1) }
  | .ipredD135 n t => neighbourBytes s t { above := idxFrom (-1) (n.size + 1), left := idxFrom 0 n.size }

/-- The write footprint of a command (20_memory.md R74). -/
def writeFootprint (s : State) : Instr → List Int
  | .nop => []
  | .setlo _ _ => []
  | .sethi _ _ => []
  | .sad _ _ _ => []
  | .sadx4 _ _ _ => s.outBytes
  | .sadavg _ _ _ => []
  | .ipredDc n t => s.dstBlk n t
  | .ipredDcLeft n t => s.dstBlk n t
  | .ipredDcTop n t => s.dstBlk n t
  | .ipredDc128 n t => s.dstBlk n t
  | .ipredV n t => s.dstBlk n t
  | .ipredH n t => s.dstBlk n t
  | .ipredTm n t => s.dstBlk n t
  | .ipredD45 n t => s.dstBlk n t
  | .ipredD117 n t => s.dstBlk n t
  | .ipredD135 n t => s.dstBlk n t

/-- The addresses of both footprints in the order in which they are tested: the destination block of an intra command
before its neighbours, every other command's inputs before its output (60_exceptions.md R245). -/
def testedAddresses (s : State) (i : Instr) : List Int :=
  match i.destSide? with
  | some _ => writeFootprint s i ++ readFootprint s i
  | none => readFootprint s i ++ writeFootprint s i

/-- The destination stride is in order: at least the side, for an intra command (60_exceptions.md R244). -/
abbrev StrideOk (s : State) (i : Instr) : Prop := ∀ n ∈ i.destSide?, n.size ≤ (s.reg .dsts).toNat

/-- Every pointer the command tests is in order (60_exceptions.md R243). -/
abbrev PointersOk (s : State) (i : Instr) : Prop := ∀ p ∈ i.pointerTests, (s.reg p.1).toNat % p.2 = 0

/-- Every byte of both footprints is in range and mapped (20_memory.md R76). -/
abbrev AddressesOk (s : State) (i : Instr) : Prop := ∀ a ∈ testedAddresses s i, s.platform.accessible a = true

end Sys2Proof.Machine
end

