-- ==== Sys2Proof/Certificates/Slice0/Obligations.lean ====
section
/-! DEFINITION. The statements for the provers, each the meaning of a rule of spec/ or of the model's own choice that
its docstring names. -/

open Sys2Proof Sys2Proof.Machine

/-! ### Encoding -/

/-- Decoding the word of a well-formed instruction gives it back, whatever its operands (30_encoding.md). -/
def Obligations.DecodeInvertsEncode : Prop :=
  ∀ i : Instr, i.wellFormed = true → decode (encode i) = .ok i

/-- A word that decodes is the word of its instruction, which is well formed: each legal word has one meaning. -/
def Obligations.EncodeInvertsDecode : Prop :=
  ∀ (w : Word) (i : Instr), decode w = .ok i → encode i = w ∧ i.wellFormed = true

/-- The legal words are exactly those that match a row of the opcode table with its constraint, and a legal word
decodes to the instruction of the row it matches (30_encoding.md R121). -/
def Obligations.LegalWordsAreTheTableRows : Prop :=
  (∀ w : Word, (∃ i, decode w = .ok i) ↔
    (w &&& 0xFFFFFFFF = 0x04000000) ∨
    ((w &&& 0xFC3F0000 = 0x08000000 ∨ w &&& 0xFC3F0000 = 0x0C000000) ∧ bits w 25 22 ≠ 15) ∨
    ((w &&& 0xFFC03FFF = 0x40000000 ∨ w &&& 0xFFC03FFF = 0x44000000 ∨ w &&& 0xFFC03FFF = 0x48000000) ∧
      (4 * 2 ^ bits w 21 19, 4 * 2 ^ bits w 18 16) ∈ Config.sadShapes) ∨
    ((∃ mode < 10, w &&& 0xFFC03FFF = BitVec.ofNat 32 (0x80000000 + mode * 0x00400000)) ∧
      bits w 21 19 = bits w 18 16 ∧ bits w 21 19 ≤ 3)) ∧
  (∀ (w : Word) (i : Instr), decode w = .ok i → w &&& i.tableMask = i.tableMatch)

/-- The worked encodings and the illegal words of 30_encoding.md R120. -/
def Obligations.WorkedEncodingsDecode : Prop :=
  decode 0x04000000 = .ok .nop ∧ decode 0x08001234 = .ok (.setlo .src 0x1234) ∧
  decode 0x0C000001 = .ok (.sethi .src 0x0001) ∧ decode 0x0B80FFFF = .ok (.setlo .sum 0xFFFF) ∧
  decode 0x40000000 = .ok (.sad .d4 .d4 .b8) ∧ decode 0x40120000 = .ok (.sad .d16 .d16 .b8) ∧
  decode 0x4024C000 = .ok (.sad .d64 .d64 .h12) ∧ decode 0x44080000 = .ok (.sadx4 .d8 .d4 .b8) ∧
  decode 0x481C8000 = .ok (.sadavg .d32 .d64 .h10) ∧ decode 0x80000000 = .ok (.ipredDc .d4 .b8) ∧
  decode 0x81924000 = .ok (.ipredTm .d16 .h8) ∧ decode 0x81C98000 = .ok (.ipredD45 .d8 .h10) ∧
  decode 0x825BC000 = .ok (.ipredD135 .d32 .h12) ∧
  (∀ w ∈ ([0x00000000, 0x04000001, 0x0BC00000, 0x40100000, 0x40280000, 0x40400000, 0x40000001, 0x80240000, 0x80080000,
    0x82800000] : List Word), ∀ i, decode w ≠ .ok i)

/-- A reserved opcode, a must-be-zero bit that is 1, a reserved field value or a shape that is not admitted makes an
offered word raise ILLEGAL_CMD with FINFO the word (30_encoding.md R111, R112, R113). -/
def Obligations.ReservedWordsRaiseIllegalCmd : Prop :=
  ∀ (w : Word) (s : State) (rest : List HostAction), s.Offered w rest →
    (bits w 31 26 ∉ [0x01, 0x02, 0x03, 0x10, 0x11, 0x12, 0x20] ∨
     (bits w 31 26 = 0x01 ∧ bits w 25 0 ≠ 0) ∨
     (bits w 31 26 ∈ [0x02, 0x03] ∧ (bits w 21 16 ≠ 0 ∨ bits w 25 22 = 15)) ∨
     (bits w 31 26 ∈ [0x10, 0x11, 0x12, 0x20] ∧ (bits w 13 0 ≠ 0 ∨ 5 ≤ bits w 21 19 ∨ 5 ≤ bits w 18 16)) ∨
     (bits w 31 26 ∈ [0x10, 0x11, 0x12] ∧
       (bits w 25 22 ≠ 0 ∨ (4 * 2 ^ bits w 21 19, 4 * 2 ^ bits w 18 16) ∉ Config.sadShapes)) ∨
     (bits w 31 26 = 0x20 ∧ (10 ≤ bits w 25 22 ∨ bits w 21 19 ≠ bits w 18 16 ∨ bits w 21 19 = 4))) →
    ∃ t, step s = .next t ∧ Faulted { s with host := rest } t .illegalCmd w

/-! ### The host and the command port -/

/-- A step at a ready core whose host offers the word of an instruction is exec of that instruction, at the state with
the offer taken and BUSY set (10_state.md R38, R39; how commands come is log 1). -/
def Obligations.StepRunsDecodedCommand : Prop :=
  ∀ (s : State) (w : Word) (i : Instr) (rest : List HostAction), s.Offered w rest → decode w = .ok i →
    step s = exec i { s with host := rest, status := { s.status with busy := true } }

/-- A word placed where the next command comes from is what the next step runs, at a ready core (log 1, the model's
choice). -/
def Obligations.PlacedWordRunsNext : Prop :=
  ∀ (s : State) (w : Nat) (i : Instr), s.ready = true → decodeTableWord 32 w = some i →
    step (s.withFetchWord 32 w) = exec i { s with status := { s.status with busy := true } }

/-- HostReset in any state, idle, busy or faulted, puts every piece of core state at its reset value and changes
nothing else, and no other step leaves the fault state; the state after reset has the same values (10_state.md R45,
70_reset_and_hazards.md R280). -/
def Obligations.HostResetClearsTheCore : Prop :=
  (∀ (s : State) (rest : List HostAction), s.host = .reset :: rest →
    ∃ t, step s = .next t ∧ t.ready = true ∧ (∀ r, t.reg r = 0) ∧
      t = { s with regs := t.regs, status := { busy := false, fault := false, gt := false }, cause := .noFault,
                   finfo := 0, ccnt := 0, host := rest }) ∧
  (∀ s t : State, s.status.fault = true → step s = .next t → t.status.fault = false →
    ∃ rest, s.nextActions = .reset :: rest ∨ ∃ w, s.nextActions = .resetDuring w :: rest) ∧
  (State.reset.ready = true ∧ (∀ r, State.reset.reg r = 0) ∧
    State.reset.status = { busy := false, fault := false, gt := false } ∧ State.reset.cause = .noFault ∧
    State.reset.finfo = 0 ∧ State.reset.ccnt = 0)

/-- A reset while a command is executing abandons the command: the core is at its reset values, each byte of the write
footprint holds its old value or the one the command would have written, and no other byte changes
(70_reset_and_hazards.md R281; which byte holds which is a free value, log 7). -/
def Obligations.ResetAbandonsExecutingCommand : Prop :=
  ∀ (s : State) (w : Word) (i : Instr) (rest : List HostAction), s.ready = true → s.mem.wf →
    s.host = .resetDuring w :: rest → decode w = .ok i →
    ∃ t u, step s = .next t ∧ exec i ({ s with host := rest } : State).accept = .next u ∧
      t = { s with regs := Regs.zero, status := { busy := false, fault := false, gt := false }, cause := .noFault,
                   finfo := 0, ccnt := 0, host := rest, mem := t.mem, draws := t.draws } ∧
      (∀ a ∈ writeFootprint s i, t.mem.read a.toNat = s.mem.read a.toNat ∨ t.mem.read a.toNat = u.mem.read a.toNat) ∧
      (∀ x : Nat, (x : Int) ∉ writeFootprint s i → t.mem.read x = s.mem.read x)

/-- The read port's table, for every select whose value the spec fixes; a read has no side effect on the core
(10_state.md R41). -/
def Obligations.ReadPortGivesSelectedRegister : Prop :=
  (∀ (s : State) (sel : BitVec 5),
    (s.status.busy = true → sel.toNat ≠ 14 ∧ (sel.toNat < 16 ∨ 19 < sel.toNat)) →
    s.readPort sel =
      [s.regs.src, s.regs.srcs, s.regs.ref0, s.regs.ref1, s.regs.ref2, s.regs.ref3, s.regs.refs, s.regs.maxsad,
       s.regs.pred2, s.regs.out, s.regs.dst, s.regs.dsts, s.regs.above, s.regs.left, s.regs.sum, 0,
       s.status.word, s.cause.word, s.finfo, s.ccnt].getD sel.toNat 0) ∧
  (∀ (s : State) (sel : BitVec 5) (rest : List HostAction), s.host = .readPort sel :: rest →
    ∃ t, step s = .next t ∧ t = { s with host := rest, rdSel := sel } ∧ t.rdData = s.readPort sel)

/-- STATUS as a word holds BUSY, FAULT and GT in bits 0, 1 and 2 and 0 above; CAUSE as a word is the code of the fault
(10_state.md sections 4 and 5; 60_exceptions.md section 2). -/
def Obligations.StatusAndCauseWords : Prop :=
  (∀ st : Status, st.word.getLsbD 0 = st.busy ∧ st.word.getLsbD 1 = st.fault ∧ st.word.getLsbD 2 = st.gt ∧
    ∀ k, 3 ≤ k → st.word.getLsbD k = false) ∧
  Cause.noFault.word = 0 ∧ Cause.illegalCmd.word = 1 ∧ Cause.misaligned.word = 2 ∧ Cause.access.word = 3 ∧
  Cause.dstStride.word = 4

/-- In the fault state no command is accepted: a step keeps every register, STATUS, CAUSE, FINFO and CCNT, or it is
HostReset, which clears them all; the read port still gives every register (60_exceptions.md R249). -/
def Obligations.FaultStateIsLeftByResetOnly : Prop :=
  (∀ s t : State, s.status.fault = true → step s = .next t →
    (t.regs = s.regs ∧ t.status = s.status ∧ t.cause = s.cause ∧ t.finfo = s.finfo ∧ t.ccnt = s.ccnt) ∨
    ((∃ rest, s.nextActions = .reset :: rest ∨ ∃ w, s.nextActions = .resetDuring w :: rest) ∧ t.regs = Regs.zero ∧
      t.status = { busy := false, fault := false, gt := false } ∧ t.cause = .noFault ∧ t.finfo = 0 ∧ t.ccnt = 0)) ∧
  (∀ (s : State) (sel : BitVec 5) (rest : List HostAction), s.status.fault = true → s.status.busy = false →
    s.host = .readPort sel :: rest → ∃ t, step s = .next t ∧ t.rdData = s.selected sel)

/-- Commands offered to a core that is not ready are not accepted: with nothing else to come the machine is stuck, and
otherwise they are passed over and the host's next other action takes place (the model's choice, log 2, after
10_state.md R42 and 70_reset_and_hazards.md R289). -/
def Obligations.UnacceptedOffersHaveNoStep : Prop :=
  (∀ (s : State) (offers : List Word), s.ready = false → offers ≠ [] → s.host = offers.map .command →
    step s = .fault .commandStreamStuck) ∧
  (∀ (s : State) (offers : List Word) (a : HostAction) (rest : List HostAction), s.ready = false →
    a.isCommand = false → s.host = offers.map .command ++ a :: rest → step s = hostStep a { s with host := rest })

/-- The host's own accesses to memory: a write changes its byte and nothing else, a read changes nothing and returns
the byte (10_state.md section 9); an address that is not mapped is the model's stop (log 10). -/
def Obligations.HostMemoryAccess : Prop :=
  (∀ (s : State) (a : Word) (b : Byte) (rest : List HostAction), s.mem.wf → s.host = .writeMemory a b :: rest →
    s.platform.mapped a.toNat = true →
    ∃ t, step s = .next t ∧ t = { s with host := rest, mem := t.mem } ∧
      ∀ x, t.mem.read x = if x = a.toNat then b else s.mem.read x) ∧
  (∀ (s : State) (a : Word) (rest : List HostAction), s.host = .readMemory a :: rest →
    s.platform.mapped a.toNat = true →
    step s = .next { s with host := rest } ∧
      (HostAction.readMemory a).returned s = some (BitVec.ofNat 32 (s.mem.read a.toNat).toNat)) ∧
  (∀ (s : State) (a : Word) (b : Byte) (rest : List HostAction),
    (s.host = .writeMemory a b :: rest ∨ s.host = .readMemory a :: rest) → s.platform.mapped a.toNat = false →
    step s = .fault (.hostAccessUnmapped a))

/-- A core to which the host does nothing keeps everything (60_exceptions.md R260; that this is a step is the model's
choice, log 3). -/
def Obligations.IdleCoreKeepsEverything : Prop :=
  ∀ s : State, s.host = [] → step s = .next s

/-! ### Invariants of every step -/

/-- Every step keeps the invariant: BUSY is 0 between steps, CAUSE and FINFO are 0 whenever FAULT is 0 and CAUSE names a
fault otherwise, and memory keeps its canonical form (10_state.md sections 4 and 7). -/
def Obligations.StepKeepsInvariant : Prop :=
  ∀ s t : State, s.Inv → step s = .next t → t.Inv

/-- The state after reset meets the invariant. -/
def Obligations.ResetMeetsInvariant : Prop := State.reset.Inv

/-- No step changes the platform, which is the model's choice of log 4, and none changes a byte that is not mapped: for a
command because it writes no byte outside its write footprint and checks the whole of it (20_memory.md sections 5 and
6), for the host's own write because the model stops it at an unmapped byte, which is the model's choice of log 10. -/
def Obligations.StepNeverTouchesUnmappedMemory : Prop :=
  ∀ s t : State, s.mem.wf → step s = .next t →
    t.platform = s.platform ∧ ∀ a : Nat, s.platform.mapped a = false → t.mem.read a = s.mem.read a

/-! ### What holds of every command -/

/-- Every command retires, and is counted, or takes a fault with no other effect at all; after a fault the core is not
ready (60_exceptions.md R246). -/
def Obligations.EveryCommandRetiresOrFaults : Prop :=
  ∀ (i : Instr) (s : State), ∃ t, exec i s = .next t ∧
    ((t.ccnt = s.ccnt + 1 ∧ t.status.busy = false ∧ t.status.fault = s.status.fault ∧ t.cause = s.cause ∧
        t.finfo = s.finfo) ∨
     (∃ c info, c ≠ .noFault ∧ Faulted s t c info ∧ t.ready = false))

/-- A kernel command never writes `x[0]` to `x[13]`, and only SAD and SADAVG write SUM (10_state.md section 2). -/
def Obligations.KernelCommandsKeepOperandRegisters : Prop :=
  ∀ (i : Instr) (s t : State), i.isKernel = true → exec i s = .next t →
    (∀ r, r ≠ .sum → t.reg r = s.reg r) ∧ (i.writesSum = false → t.reg .sum = s.reg .sum)

/-- GT is written by SAD alone, which sets it exactly when the exact sum exceeds MAXSAD, and no command reads it
(10_state.md R31). -/
def Obligations.OnlySadWritesGtAndNoneReadsIt : Prop :=
  (∀ (i : Instr) (s t : State), exec i s = .next t → (∀ w h tag, i ≠ .sad w h tag) → t.status.gt = s.status.gt) ∧
  (∀ (w h : Dim) (tag : Tag) (s : State), s.SrcRefOk 0 w h tag → ∃ t, exec (.sad w h tag) s = .next t ∧
    (t.status.gt = true ↔ (s.reg .maxsad).toNat < s.exactSum 0 w.size h.size tag.ss)) ∧
  (∀ (i : Instr) (s : State) (b : Bool), ∃ t t', exec i s = .next t ∧ exec i (s.setGt b) = .next t' ∧
    t'.setGt false = t.setGt false)

/-- The content of a register a kernel command does not read has no effect on it: whatever it holds, the command does
the same and raises no other fault (10_state.md R24). -/
def Obligations.UnusedRegistersHaveNoEffect : Prop :=
  ∀ (i : Instr) (s : State) (r : Reg) (v : Word), i.isKernel = true → r ∉ i.readsRegs →
    ∃ t t', exec i s = .next t ∧ exec i (s.writeReg r v) = .next t' ∧
      (∀ u, t'.writeReg r u = t.writeReg r u) ∧
      (i.writesSum = true → t.ccnt = s.ccnt + 1 → t'.reg .sum = t.reg .sum)

/-- A command reads no byte outside its read footprint and writes none outside its write footprint: two memories that
agree on the read footprint give the same result, the same fault and the same bytes written, and every other byte stays
(20_memory.md R75). -/
def Obligations.CommandsStayInTheirFootprints : Prop :=
  ∀ (i : Instr) (s : State) (m : Memory), s.mem.wf → m.wf →
    (∀ a ∈ readFootprint s i, m.read a.toNat = s.mem.read a.toNat) →
    ∃ t t', exec i s = .next t ∧ exec i (s.withMem m) = .next t' ∧ t'.withMem [] = t.withMem [] ∧
      (t.ccnt = s.ccnt + 1 → ∀ a ∈ writeFootprint s i, t'.mem.read a.toNat = t.mem.read a.toNat) ∧
      (∀ x : Nat, (x : Int) ∉ writeFootprint s i → t.mem.read x = s.mem.read x)

/-! ### Faults -/

/-- IPRED with a destination stride below its side raises DST_STRIDE with FINFO the stride (60_exceptions.md R244). -/
def Obligations.SmallDestinationStrideFaults : Prop :=
  ∀ (i : Instr) (s : State) (n : Dim), i.destSide? = some n → (s.reg .dsts).toNat < n.size →
    ∃ t, exec i s = .next t ∧ Faulted s t .dstStride (s.reg .dsts)

/-- The first pointer that breaks its alignment, in register-number order, raises MISALIGNED with FINFO the pointer
(60_exceptions.md R243). -/
def Obligations.FirstMisalignedPointerFaults : Prop :=
  ∀ (i : Instr) (s : State) (before after : List (Reg × Nat)) (r : Reg) (k : Nat), StrideOk s i →
    i.pointerTests = before ++ (r, k) :: after → (∀ p ∈ before, (s.reg p.1).toNat % p.2 = 0) →
    (s.reg r).toNat % k ≠ 0 → ∃ t, exec i s = .next t ∧ Faulted s t .misaligned (s.reg r)

/-- The first byte address of the footprints that is below 0, above `2 ^ 32 - 1` or not mapped raises ACCESS with FINFO
the address modulo `2 ^ 32` (60_exceptions.md R245). -/
def Obligations.FirstInaccessibleByteFaults : Prop :=
  ∀ (i : Instr) (s : State) (before after : List Int) (a : Int), StrideOk s i → PointersOk s i →
    testedAddresses s i = before ++ a :: after → (∀ b ∈ before, s.platform.accessible b = true) →
    (a < 0 ∨ 2 ^ 32 - 1 < a ∨ s.platform.mapped a.toNat = false) →
    ∃ t, exec i s = .next t ∧ Faulted s t .access (BitVec.ofInt 32 a)

/-- One command reports one fault, the first of ILLEGAL_CMD, DST_STRIDE, MISALIGNED, ACCESS that holds, and none when
none holds (60_exceptions.md R247). -/
def Obligations.FaultsAreReportedInPriorityOrder : Prop :=
  (∀ (w : Word) (s : State) (rest : List HostAction), s.Offered w rest → (∀ i, decode w ≠ .ok i) →
    ∃ t, step s = .next t ∧ t.status.fault = true ∧ t.cause = .illegalCmd) ∧
  (∀ (i : Instr) (s : State), i.isKernel = true → ∃ t, exec i s = .next t ∧
    (¬ StrideOk s i → t.status.fault = true ∧ t.cause = .dstStride) ∧
    (StrideOk s i → ¬ PointersOk s i → t.status.fault = true ∧ t.cause = .misaligned) ∧
    (StrideOk s i → PointersOk s i → ¬ AddressesOk s i → t.status.fault = true ∧ t.cause = .access) ∧
    (StrideOk s i → PointersOk s i → AddressesOk s i →
      t.ccnt = s.ccnt + 1 ∧ t.status.fault = s.status.fault ∧ t.cause = s.cause))

/-! ### NOP, SETLO, SETHI -/

/-- NOP retires and changes nothing else; its word is the one of its opcode with every other bit 0, and any other word
of that opcode raises ILLEGAL_CMD (44_control.md R231). -/
def Obligations.NopOnlyRetires : Prop :=
  (∀ s : State, exec .nop s = .next { s with ccnt := s.ccnt + 1, status := { s.status with busy := false } }) ∧
  encode .nop = 0x04000000 ∧
  (∀ w : Word, bits w 31 26 = 0x01 → bits w 25 0 = 0 → w = 0x04000000 ∧ decode w = .ok .nop) ∧
  (∀ (w : Word) (s : State) (rest : List HostAction), s.Offered w rest → bits w 31 26 = 0x01 → bits w 25 0 ≠ 0 →
    ∃ t, step s = .next t ∧ Faulted { s with host := rest } t .illegalCmd w)

/-- SETLO loads the zero-extended immediate and changes nothing else but the retirement; its word is of format I, and
with RD 15 or a bit of 21:16 set it raises ILLEGAL_CMD (44_control.md R232). -/
def Obligations.SetloLoadsZeroExtended : Prop :=
  (∀ (rd : Reg) (imm : BitVec 16) (s : State), ∃ t, exec (.setlo rd imm) s = .next t ∧
    (t.reg rd).toNat = imm.toNat ∧ (∀ r, r ≠ rd → t.reg r = s.reg r) ∧
    t = { s with regs := t.regs, ccnt := s.ccnt + 1, status := { s.status with busy := false } }) ∧
  (∀ (w : Word) (rd : Reg), bits w 31 26 = 0x02 → bits w 21 16 = 0 → bits w 25 22 = rd.number →
    decode w = .ok (.setlo rd (BitVec.ofNat 16 (bits w 15 0)))) ∧
  (∀ (w : Word) (s : State) (rest : List HostAction), s.Offered w rest → bits w 31 26 = 0x02 →
    (bits w 25 22 = 15 ∨ bits w 21 16 ≠ 0) →
    ∃ t, step s = .next t ∧ Faulted { s with host := rest } t .illegalCmd w)

/-- SETHI loads the upper half, keeps the lower half and changes nothing else but the retirement; its word is of format
I, and with RD 15 or a bit of 21:16 set it raises ILLEGAL_CMD (44_control.md R234). -/
def Obligations.SethiLoadsUpperHalf : Prop :=
  (∀ (rd : Reg) (imm : BitVec 16) (s : State), ∃ t, exec (.sethi rd imm) s = .next t ∧
    (t.reg rd).toNat = imm.toNat * 65536 + (s.reg rd).toNat % 65536 ∧ (∀ r, r ≠ rd → t.reg r = s.reg r) ∧
    t = { s with regs := t.regs, ccnt := s.ccnt + 1, status := { s.status with busy := false } }) ∧
  (∀ (w : Word) (rd : Reg), bits w 31 26 = 0x03 → bits w 21 16 = 0 → bits w 25 22 = rd.number →
    decode w = .ok (.sethi rd (BitVec.ofNat 16 (bits w 15 0)))) ∧
  (∀ (w : Word) (s : State) (rest : List HostAction), s.Offered w rest → bits w 31 26 = 0x03 →
    (bits w 25 22 = 15 ∨ bits w 21 16 ≠ 0) →
    ∃ t, step s = .next t ∧ Faulted { s with host := rest } t .illegalCmd w)

/-- The expansion of `li rd, imm32`: SETLO of the lower half, then SETHI of the upper half only when it is not zero;
after it the register holds the value, whatever it held before, and no other register changed (30_encoding.md R119). -/
def Obligations.LoadImmediateExpansion : Prop :=
  ∀ (rd : Reg) (v : Word),
    (v.toNat / 65536 = 0 → assembleLi rd v = [.setlo rd (BitVec.ofNat 16 v.toNat)]) ∧
    (v.toNat / 65536 ≠ 0 → assembleLi rd v =
      [.setlo rd (BitVec.ofNat 16 v.toNat), .sethi rd (BitVec.ofNat 16 (v.toNat / 65536))]) ∧
    (∀ s : State, ∃ t, execAll (assembleLi rd v) s = some t ∧ t.reg rd = v ∧ ∀ r, r ≠ rd → t.reg r = s.reg r)

/-- SETLO then SETHI gives `hi * 65536 + lo`; in the other order the result is `lo` alone (44_control.md section 3). -/
def Obligations.SetloSethiOrderMatters : Prop :=
  ∀ (rd : Reg) (lo hi : BitVec 16) (s : State),
    (∃ t, execAll [.setlo rd lo, .sethi rd hi] s = some t ∧ (t.reg rd).toNat = hi.toNat * 65536 + lo.toNat) ∧
    (∃ t, execAll [.sethi rd hi, .setlo rd lo] s = some t ∧ (t.reg rd).toNat = lo.toNat)

/-! ### Memory -/

/-- `MemRead` and `MemWrite` are little-endian: a read is the sum of its bytes by weight, a write sets byte `k` to the
`k`-th byte of the value and changes no other byte (20_memory.md R64; R63 in section 1). -/
def Obligations.MemoryAccessesAreLittleEndian : Prop :=
  (∀ (m : Memory) (a n : Nat), m.readLE (a : Int) n = ∑ k ∈ Finset.range n, (m.read (a + k)).toNat * 256 ^ k) ∧
  (∀ (m : Memory) (a n v : Nat), m.wf → a + n ≤ 2 ^ 32 → v < 256 ^ n →
    (∀ k < n, ((m.writeLE (a : Int) n v).read (a + k)).toNat = v / 256 ^ k % 256) ∧
    (∀ x, (x < a ∨ a + n ≤ x) → (m.writeLE (a : Int) n v).read x = m.read x))

/-! ### The SAD family -/

/-- SAD retires with SUM by the policy, GT the comparison of the exact sum with the bound, and nothing else changed: the
exact sum at most the bound is returned under every policy; above it `exact` returns it, `row_partial` the sum of the
rows up to the first after which the running sum exceeds the bound, and `any_admitted` a value not below the bound
(40_sad.md R144, R145). -/
def Obligations.SadReturnsByPolicy : Prop :=
  ∀ (w h : Dim) (tag : Tag) (s : State), s.SrcRefOk 0 w h tag →
    ∃ t, exec (.sad w h tag) s = .next t ∧
      let row := fun y => ∑ x ∈ Finset.range w.size,
        ((s.srcAt tag.ss x y : Int) - (s.refAt 0 tag.ss x y : Int)).natAbs
      let exactSum := ∑ y ∈ Finset.range h.size, row y
      let bound := (s.reg .maxsad).toNat
      let result := (t.reg .sum).toNat
      t = { s with regs := s.regs.set .sum (t.reg .sum), ccnt := s.ccnt + 1, draws := t.draws,
                   status := { busy := false, fault := s.status.fault, gt := decide (bound < exactSum) } } ∧
      (s.platform.sadExit ≠ .anyAdmitted → t.draws = s.draws) ∧
      (exactSum ≤ bound → result = exactSum) ∧
      (bound < exactSum →
        (s.platform.sadExit = .exact → result = exactSum) ∧
        (s.platform.sadExit = .rowPartial → ∃ j < h.size, result = ∑ y ∈ Finset.range (j + 1), row y ∧
          bound < result ∧ ∀ i < j, ∑ y ∈ Finset.range (i + 1), row y ≤ bound) ∧
        (s.platform.sadExit = .anyAdmitted → bound ≤ result))

/-- The extremes of the bound: with the largest one the exact sum is returned and GT is 0 under every policy, and with 0
GT is 1 unless the two blocks are equal sample for sample (40_sad.md section 2). -/
def Obligations.SadAtTheExtremesOfTheBound : Prop :=
  ∀ (w h : Dim) (tag : Tag) (s : State), s.SrcRefOk 0 w h tag →
    (s.reg .maxsad = 0xFFFFFFFF → ∃ t, exec (.sad w h tag) s = .next t ∧ t.status.gt = false ∧
      (t.reg .sum).toNat = s.exactSum 0 w.size h.size tag.ss) ∧
    (s.reg .maxsad = 0 → ∃ t, exec (.sad w h tag) s = .next t ∧
      (t.status.gt = false ↔ ∀ y < h.size, ∀ x < w.size, s.srcAt tag.ss x y = s.refAt 0 tag.ss x y))

/-- The sums never overflow 32 bits, with the bounds for containers, for 12-bit samples and for bytes, and the three
wide tags do the same on the same memory (40_sad.md R141). -/
def Obligations.SumsNeverOverflow : Prop :=
  (∀ (s : State) (k : Nat) (w h : Dim) (tag : Tag),
    s.exactSum k w.size h.size tag.ss ≤ 268431360 ∧ s.averagedSum w.size h.size tag.ss ≤ 268431360 ∧
    s.exactSum k w.size h.size 1 ≤ 1044480 ∧
    ((∀ y < h.size, ∀ x < w.size, s.srcAt tag.ss x y ≤ 4095 ∧ s.refAt k tag.ss x y ≤ 4095) →
      s.exactSum k w.size h.size tag.ss ≤ 16773120)) ∧
  (∀ (w h : Dim) (s : State) (t u : Tag), t ≠ .b8 → u ≠ .b8 →
    exec (.sad w h t) s = exec (.sad w h u) s ∧ exec (.sadx4 w h t) s = exec (.sadx4 w h u) s ∧
    exec (.sadavg w h t) s = exec (.sadavg w h u) s)

/-- SADX4 retires with the four exact sums as 32-bit words from OUT, each of its own reference block, every other byte
of memory as before and nothing else changed, GT and SUM included (40_sad.md section 3, 20_memory.md section 5). -/
def Obligations.Sadx4StoresFourSums : Prop :=
  ∀ (w h : Dim) (tag : Tag) (s : State), s.mem.wf → (∀ k < 4, s.SrcRefOk k w h tag) →
    (s.reg .out).toNat % 4 = 0 → (∀ j < 16, s.platform.accessible (((s.reg .out).toNat + j : Nat) : Int) = true) →
    ∃ t, exec (.sadx4 w h tag) s = .next t ∧ RetiredMemoryOnly s t ∧
      (∀ k < 4, t.mem.readLE (((s.reg .out).toNat + 4 * k : Nat) : Int) 4 =
        ∑ y ∈ Finset.range h.size, ∑ x ∈ Finset.range w.size,
          ((s.srcAt tag.ss x y : Int) - (s.refAt k tag.ss x y : Int)).natAbs) ∧
      (∀ a : Nat, (a < (s.reg .out).toNat ∨ (s.reg .out).toNat + 16 ≤ a) → t.mem.read a = s.mem.read a)

/-- Each sum SADX4 stores is the one a SAD with the largest bound returns for that reference block alone, under every
policy (40_sad.md section 3). -/
def Obligations.Sadx4LaneEqualsUnboundedSad : Prop :=
  ∀ (w h : Dim) (tag : Tag) (s : State), s.mem.wf → (∀ k < 4, s.SrcRefOk k w h tag) →
    (s.reg .out).toNat % 4 = 0 → (∀ j < 16, s.platform.accessible (((s.reg .out).toNat + j : Nat) : Int) = true) →
    ∀ k < 4, ∃ t u, exec (.sadx4 w h tag) s = .next t ∧
      exec (.sad w h tag) ((s.writeReg .ref0 (s.reg (refReg k))).writeReg .maxsad 0xFFFFFFFF) = .next u ∧
      t.mem.readLE (((s.reg .out).toNat + 4 * k : Nat) : Int) 4 = (u.reg .sum).toNat

/-- SADAVG retires with SUM the sum of the differences from the average, a half rounded up, of reference and second
predictor, and nothing else changed; with a second predictor equal to the reference that is the plain exact sum
(40_sad.md section 4). -/
def Obligations.SadavgSumsAgainstRoundedAverage : Prop :=
  ∀ (w h : Dim) (tag : Tag) (s : State), s.SrcRefOk 0 w h tag → s.BlockOk tag (s.reg .pred2) w.size w.size h.size →
    ∃ t, exec (.sadavg w h tag) s = .next t ∧
      t = { s with regs := s.regs.set .sum (t.reg .sum), ccnt := s.ccnt + 1,
                   status := { s.status with busy := false } } ∧
      (t.reg .sum).toNat = ∑ y ∈ Finset.range h.size, ∑ x ∈ Finset.range w.size,
        ((s.srcAt tag.ss x y : Int) -
          (((s.refAt 0 tag.ss x y + s.pred2At w.size tag.ss x y + 1) / 2 : Nat) : Int)).natAbs ∧
      ((∀ y < h.size, ∀ x < w.size, s.pred2At w.size tag.ss x y = s.refAt 0 tag.ss x y) →
        (t.reg .sum).toNat = s.exactSum 0 w.size h.size tag.ss)

/-! ### The intra predictors -/

/-- IPRED.DC fills the block with the mean, a half rounded up, of the `above` row and the `left` column, read before any
store; nothing outside the block changes (41_intra_dc.md section 2). -/
def Obligations.IpredDcFillsWithMeanOfBoth : Prop :=
  ∀ (n : Dim) (tag : Tag) (s : State), s.mem.wf → s.DestOk n tag → s.RowOk tag (s.reg .above) 0 n.size →
    s.RowOk tag (s.reg .left) 0 n.size →
    ∃ t, exec (.ipredDc n tag) s = .next t ∧ PredictedBlock s t n tag (fun _ _ =>
      (∑ i ∈ Finset.range n.size, s.aboveAt tag.ss (i : Int) + ∑ j ∈ Finset.range n.size, s.leftAt tag.ss (j : Int)
        + n.size) / (2 * n.size))

/-- IPRED.DC_LEFT fills the block with the rounded mean of the `left` column; ABOVE is not checked
(41_intra_dc.md section 3). -/
def Obligations.IpredDcLeftFillsWithMeanOfLeft : Prop :=
  ∀ (n : Dim) (tag : Tag) (s : State), s.mem.wf → s.DestOk n tag → s.RowOk tag (s.reg .left) 0 n.size →
    ∃ t, exec (.ipredDcLeft n tag) s = .next t ∧ PredictedBlock s t n tag (fun _ _ =>
      (∑ j ∈ Finset.range n.size, s.leftAt tag.ss (j : Int) + n.size / 2) / n.size)

/-- IPRED.DC_TOP fills the block with the rounded mean of the `above` row; LEFT is not checked
(41_intra_dc.md section 4). -/
def Obligations.IpredDcTopFillsWithMeanOfAbove : Prop :=
  ∀ (n : Dim) (tag : Tag) (s : State), s.mem.wf → s.DestOk n tag → s.RowOk tag (s.reg .above) 0 n.size →
    ∃ t, exec (.ipredDcTop n tag) s = .next t ∧ PredictedBlock s t n tag (fun _ _ =>
      (∑ i ∈ Finset.range n.size, s.aboveAt tag.ss (i : Int) + n.size / 2) / n.size)

/-- IPRED.DC_128 fills the block with 128, 512 or 2048 by the bit depth; neither ABOVE nor LEFT is checked
(41_intra_dc.md section 5). -/
def Obligations.IpredDc128FillsWithMidRange : Prop :=
  ∀ (n : Dim) (tag : Tag) (s : State), s.mem.wf → s.DestOk n tag →
    ∃ t, exec (.ipredDc128 n tag) s = .next t ∧ PredictedBlock s t n tag (fun _ _ =>
      match tag with | .b8 => 128 | .h8 => 128 | .h10 => 512 | .h12 => 2048)

/-- IPRED.V copies the `above` row into every row; LEFT is not checked (43_intra_v_h_tm.md section 1). -/
def Obligations.IpredVCopiesAbove : Prop :=
  ∀ (n : Dim) (tag : Tag) (s : State), s.mem.wf → s.DestOk n tag → s.RowOk tag (s.reg .above) 0 n.size →
    ∃ t, exec (.ipredV n tag) s = .next t ∧ PredictedBlock s t n tag (fun _ c => s.aboveAt tag.ss (c : Int))

/-- IPRED.H copies the `left` column into every column; ABOVE is not checked (43_intra_v_h_tm.md section 2). -/
def Obligations.IpredHCopiesLeft : Prop :=
  ∀ (n : Dim) (tag : Tag) (s : State), s.mem.wf → s.DestOk n tag → s.RowOk tag (s.reg .left) 0 n.size →
    ∃ t, exec (.ipredH n tag) s = .next t ∧ PredictedBlock s t n tag (fun r _ => s.leftAt tag.ss (r : Int))

/-- IPRED.TM extrapolates from the corner and saturates to the range of the bit depth (43_intra_v_h_tm.md section 3). -/
def Obligations.IpredTmExtrapolatesAndSaturates : Prop :=
  ∀ (n : Dim) (tag : Tag) (s : State), s.mem.wf → s.DestOk n tag → s.RowOk tag (s.reg .above) (-1) (n.size + 1) →
    s.RowOk tag (s.reg .left) 0 n.size →
    ∃ t, exec (.ipredTm n tag) s = .next t ∧ PredictedBlock s t n tag (fun r c =>
      (max 0 (min ((2 : Int) ^ tag.bd - 1) ((s.aboveAt tag.ss (c : Int) : Int) + (s.leftAt tag.ss (r : Int) : Int)
        - (s.aboveAt tag.ss (-1) : Int)))).toNat)

/-- IPRED.D45 averages three neighbours along the `above` row, and the last pixel is the last neighbour unfiltered; LEFT
is not checked (42_intra_directional.md section 2; tap positions log 11). -/
def Obligations.IpredD45ProjectsAbove : Prop :=
  ∀ (n : Dim) (tag : Tag) (s : State), s.mem.wf → s.DestOk n tag → s.RowOk tag (s.reg .above) 0 (2 * n.size) →
    ∃ t, exec (.ipredD45 n tag) s = .next t ∧ PredictedBlock s t n tag (fun r c =>
      if r = n.size - 1 ∧ c = n.size - 1 then s.aboveAt tag.ss (2 * (n.size : Int) - 1)
      else (s.aboveAt tag.ss ((r : Int) + (c : Int)) + 2 * s.aboveAt tag.ss ((r : Int) + (c : Int) + 1)
        + s.aboveAt tag.ss ((r : Int) + (c : Int) + 2) + 2) / 4)

/-- IPRED.D117 in its stepwise form: two rows and one column filled, the rest copied one column right for every two rows
down (42_intra_directional.md section 3; tap positions log 11). -/
def Obligations.IpredD117Stepwise : Prop :=
  ∀ (n : Dim) (tag : Tag) (s : State), s.mem.wf → s.DestOk n tag → s.RowOk tag (s.reg .above) (-1) (n.size + 1) →
    s.RowOk tag (s.reg .left) 0 (n.size - 1) →
    ∃ t pred, exec (.ipredD117 n tag) s = .next t ∧ PredictedBlock s t n tag pred ∧
      let above := s.aboveAt tag.ss
      let left := s.leftAt tag.ss
      (∀ c : Nat, c < n.size → pred 0 c = avg2 (above ((c : Int) - 1)) (above (c : Int))) ∧
      pred 1 0 = avg3 (left 0) (above (-1)) (above 0) ∧
      (∀ c : Nat, 1 ≤ c → c < n.size →
        pred 1 c = avg3 (above ((c : Int) - 2)) (above ((c : Int) - 1)) (above (c : Int))) ∧
      pred 2 0 = avg3 (above (-1)) (left 0) (left 1) ∧
      (∀ r : Nat, 3 ≤ r → r < n.size →
        pred r 0 = avg3 (left ((r : Int) - 3)) (left ((r : Int) - 2)) (left ((r : Int) - 1))) ∧
      (∀ r c : Nat, 2 ≤ r → r < n.size → 1 ≤ c → c < n.size → pred r c = pred (r - 2) (c - 1))

/-- IPRED.D135 in its stepwise form: the first row and column filled, the rest copied along the diagonal
(42_intra_directional.md section 4; tap positions log 11). -/
def Obligations.IpredD135Stepwise : Prop :=
  ∀ (n : Dim) (tag : Tag) (s : State), s.mem.wf → s.DestOk n tag → s.RowOk tag (s.reg .above) (-1) (n.size + 1) →
    s.RowOk tag (s.reg .left) 0 n.size →
    ∃ t pred, exec (.ipredD135 n tag) s = .next t ∧ PredictedBlock s t n tag pred ∧
      let above := s.aboveAt tag.ss
      let left := s.leftAt tag.ss
      pred 0 0 = avg3 (left 0) (above (-1)) (above 0) ∧
      (∀ c : Nat, 1 ≤ c → c < n.size →
        pred 0 c = avg3 (above ((c : Int) - 2)) (above ((c : Int) - 1)) (above (c : Int))) ∧
      pred 1 0 = avg3 (above (-1)) (left 0) (left 1) ∧
      (∀ r : Nat, 2 ≤ r → r < n.size →
        pred r 0 = avg3 (left ((r : Int) - 2)) (left ((r : Int) - 1)) (left (r : Int))) ∧
      (∀ r c : Nat, 1 ≤ r → r < n.size → 1 ≤ c → c < n.size → pred r c = pred (r - 1) (c - 1))

/-- With every neighbour a directional mode reads equal to `v`, every predicted sample is `v`
(42_intra_directional.md section 5). -/
def Obligations.DirectionalModesKeepAConstant : Prop :=
  ∀ (n : Dim) (above left : Int → Nat) (v r c : Nat), r < n.size → c < n.size →
    (∀ i : Int, 0 ≤ i → i < (n.size : Int) → above i = v) →
    ((∀ i : Int, (n.size : Int) ≤ i → i < 2 * (n.size : Int) → above i = v) → predD45 n.size above left r c = v) ∧
    (above (-1) = v → (∀ j : Int, 0 ≤ j → j < (n.size : Int) - 1 → left j = v) → predD117 above left r c = v) ∧
    (above (-1) = v → (∀ j : Int, 0 ≤ j → j < (n.size : Int) → left j = v) → predD135 above left r c = v)

/-- With every `left` sample 0 and every `above` sample the largest of the depth, DC predicts what DC_128 does, for
every side (41_intra_dc.md section 6). -/
def Obligations.DcOfExtremesIsMidRange : Prop :=
  ∀ (n : Dim) (tag : Tag) (above left : Int → Nat) (r c : Nat),
    (∀ i : Int, 0 ≤ i → i < (n.size : Int) → above i = tag.maxv ∧ left i = 0) →
    predDc n.size above left r c = predDc128 tag.bd above left r c

/-- V, H and TM predict samples in the range of the depth from samples in range, and TM does so from any samples at all
(43_intra_v_h_tm.md section 4). -/
def Obligations.CopiesAndTmStayInRange : Prop :=
  ∀ (n : Dim) (tag : Tag) (above left : Int → Nat) (r c : Nat), r < n.size → c < n.size →
    predTm tag.maxv above left r c ≤ tag.maxv ∧
    ((∀ i : Int, 0 ≤ i → i < (n.size : Int) → above i ≤ tag.maxv) → predV above left r c ≤ tag.maxv) ∧
    ((∀ j : Int, 0 ≤ j → j < (n.size : Int) → left j ≤ tag.maxv) → predH above left r c ≤ tag.maxv)
end

