-- ==== Sys2Proof/Laws/State.lean ====
section
/-! SUPPORT. One lemma per field per update of State, true by definition, so that no later proof unfolds an update; the
registers after a write. -/

namespace Sys2Proof.Machine

/-! ### writeReg -/

@[simp] theorem State.writeReg_regs (s : State) (r : Reg) (v : Word) : (s.writeReg r v).regs = s.regs.set r v := rfl
@[simp] theorem State.writeReg_status (s : State) (r : Reg) (v : Word) : (s.writeReg r v).status = s.status := rfl
@[simp] theorem State.writeReg_cause (s : State) (r : Reg) (v : Word) : (s.writeReg r v).cause = s.cause := rfl
@[simp] theorem State.writeReg_finfo (s : State) (r : Reg) (v : Word) : (s.writeReg r v).finfo = s.finfo := rfl
@[simp] theorem State.writeReg_ccnt (s : State) (r : Reg) (v : Word) : (s.writeReg r v).ccnt = s.ccnt := rfl
@[simp] theorem State.writeReg_rdSel (s : State) (r : Reg) (v : Word) : (s.writeReg r v).rdSel = s.rdSel := rfl
@[simp] theorem State.writeReg_host (s : State) (r : Reg) (v : Word) : (s.writeReg r v).host = s.host := rfl
@[simp] theorem State.writeReg_mem (s : State) (r : Reg) (v : Word) : (s.writeReg r v).mem = s.mem := rfl
@[simp] theorem State.writeReg_platform (s : State) (r : Reg) (v : Word) : (s.writeReg r v).platform = s.platform := rfl
@[simp] theorem State.writeReg_draws (s : State) (r : Reg) (v : Word) : (s.writeReg r v).draws = s.draws := rfl

/-! ### withMem -/

@[simp] theorem State.withMem_regs (s : State) (m : Memory) : (s.withMem m).regs = s.regs := rfl
@[simp] theorem State.withMem_status (s : State) (m : Memory) : (s.withMem m).status = s.status := rfl
@[simp] theorem State.withMem_cause (s : State) (m : Memory) : (s.withMem m).cause = s.cause := rfl
@[simp] theorem State.withMem_finfo (s : State) (m : Memory) : (s.withMem m).finfo = s.finfo := rfl
@[simp] theorem State.withMem_ccnt (s : State) (m : Memory) : (s.withMem m).ccnt = s.ccnt := rfl
@[simp] theorem State.withMem_rdSel (s : State) (m : Memory) : (s.withMem m).rdSel = s.rdSel := rfl
@[simp] theorem State.withMem_host (s : State) (m : Memory) : (s.withMem m).host = s.host := rfl
@[simp] theorem State.withMem_mem (s : State) (m : Memory) : (s.withMem m).mem = m := rfl
@[simp] theorem State.withMem_platform (s : State) (m : Memory) : (s.withMem m).platform = s.platform := rfl
@[simp] theorem State.withMem_draws (s : State) (m : Memory) : (s.withMem m).draws = s.draws := rfl

/-! ### setGt -/

@[simp] theorem State.setGt_regs (s : State) (b : Bool) : (s.setGt b).regs = s.regs := rfl
@[simp] theorem State.setGt_status (s : State) (b : Bool) : (s.setGt b).status = { s.status with gt := b } := rfl
@[simp] theorem State.setGt_cause (s : State) (b : Bool) : (s.setGt b).cause = s.cause := rfl
@[simp] theorem State.setGt_finfo (s : State) (b : Bool) : (s.setGt b).finfo = s.finfo := rfl
@[simp] theorem State.setGt_ccnt (s : State) (b : Bool) : (s.setGt b).ccnt = s.ccnt := rfl
@[simp] theorem State.setGt_rdSel (s : State) (b : Bool) : (s.setGt b).rdSel = s.rdSel := rfl
@[simp] theorem State.setGt_host (s : State) (b : Bool) : (s.setGt b).host = s.host := rfl
@[simp] theorem State.setGt_mem (s : State) (b : Bool) : (s.setGt b).mem = s.mem := rfl
@[simp] theorem State.setGt_platform (s : State) (b : Bool) : (s.setGt b).platform = s.platform := rfl
@[simp] theorem State.setGt_draws (s : State) (b : Bool) : (s.setGt b).draws = s.draws := rfl

/-! ### accept -/

@[simp] theorem State.accept_regs (s : State) : (s.accept).regs = s.regs := rfl
@[simp] theorem State.accept_status (s : State) : (s.accept).status = { s.status with busy := true } := rfl
@[simp] theorem State.accept_cause (s : State) : (s.accept).cause = s.cause := rfl
@[simp] theorem State.accept_finfo (s : State) : (s.accept).finfo = s.finfo := rfl
@[simp] theorem State.accept_ccnt (s : State) : (s.accept).ccnt = s.ccnt := rfl
@[simp] theorem State.accept_rdSel (s : State) : (s.accept).rdSel = s.rdSel := rfl
@[simp] theorem State.accept_host (s : State) : (s.accept).host = s.host := rfl
@[simp] theorem State.accept_mem (s : State) : (s.accept).mem = s.mem := rfl
@[simp] theorem State.accept_platform (s : State) : (s.accept).platform = s.platform := rfl
@[simp] theorem State.accept_draws (s : State) : (s.accept).draws = s.draws := rfl

/-! ### retire -/

@[simp] theorem State.retire_regs (s : State) : (s.retire).regs = s.regs := rfl
@[simp] theorem State.retire_status (s : State) : (s.retire).status = { s.status with busy := false } := rfl
@[simp] theorem State.retire_cause (s : State) : (s.retire).cause = s.cause := rfl
@[simp] theorem State.retire_finfo (s : State) : (s.retire).finfo = s.finfo := rfl
@[simp] theorem State.retire_ccnt (s : State) : (s.retire).ccnt = s.ccnt + 1 := rfl
@[simp] theorem State.retire_rdSel (s : State) : (s.retire).rdSel = s.rdSel := rfl
@[simp] theorem State.retire_host (s : State) : (s.retire).host = s.host := rfl
@[simp] theorem State.retire_mem (s : State) : (s.retire).mem = s.mem := rfl
@[simp] theorem State.retire_platform (s : State) : (s.retire).platform = s.platform := rfl
@[simp] theorem State.retire_draws (s : State) : (s.retire).draws = s.draws := rfl

/-! ### raise -/

@[simp] theorem State.raise_regs (s : State) (c : Cause) (w : Word) : (s.raise c w).regs = s.regs := rfl
@[simp] theorem State.raise_status (s : State) (c : Cause) (w : Word) : (s.raise c w).status = { s.status with fault := true, busy := false } := rfl
@[simp] theorem State.raise_cause (s : State) (c : Cause) (w : Word) : (s.raise c w).cause = c := rfl
@[simp] theorem State.raise_finfo (s : State) (c : Cause) (w : Word) : (s.raise c w).finfo = w := rfl
@[simp] theorem State.raise_ccnt (s : State) (c : Cause) (w : Word) : (s.raise c w).ccnt = s.ccnt := rfl
@[simp] theorem State.raise_rdSel (s : State) (c : Cause) (w : Word) : (s.raise c w).rdSel = s.rdSel := rfl
@[simp] theorem State.raise_host (s : State) (c : Cause) (w : Word) : (s.raise c w).host = s.host := rfl
@[simp] theorem State.raise_mem (s : State) (c : Cause) (w : Word) : (s.raise c w).mem = s.mem := rfl
@[simp] theorem State.raise_platform (s : State) (c : Cause) (w : Word) : (s.raise c w).platform = s.platform := rfl
@[simp] theorem State.raise_draws (s : State) (c : Cause) (w : Word) : (s.raise c w).draws = s.draws := rfl

/-! ### resetCore -/

@[simp] theorem State.resetCore_regs (s : State) : (s.resetCore).regs = Regs.zero := rfl
@[simp] theorem State.resetCore_status (s : State) : (s.resetCore).status = { busy := false, fault := false, gt := false } := rfl
@[simp] theorem State.resetCore_cause (s : State) : (s.resetCore).cause = .noFault := rfl
@[simp] theorem State.resetCore_finfo (s : State) : (s.resetCore).finfo = 0 := rfl
@[simp] theorem State.resetCore_ccnt (s : State) : (s.resetCore).ccnt = 0 := rfl
@[simp] theorem State.resetCore_rdSel (s : State) : (s.resetCore).rdSel = s.rdSel := rfl
@[simp] theorem State.resetCore_host (s : State) : (s.resetCore).host = s.host := rfl
@[simp] theorem State.resetCore_mem (s : State) : (s.resetCore).mem = s.mem := rfl
@[simp] theorem State.resetCore_platform (s : State) : (s.resetCore).platform = s.platform := rfl
@[simp] theorem State.resetCore_draws (s : State) : (s.resetCore).draws = s.draws := rfl

/-! ### Registers -/

@[simp] theorem State.reg_withMem (s : State) (m : Memory) (q : Reg) : (s.withMem m).reg q = s.reg q := rfl
@[simp] theorem State.reg_setGt (s : State) (b : Bool) (q : Reg) : (s.setGt b).reg q = s.reg q := rfl
@[simp] theorem State.reg_accept (s : State) (q : Reg) : (s.accept).reg q = s.reg q := rfl
@[simp] theorem State.reg_retire (s : State) (q : Reg) : (s.retire).reg q = s.reg q := rfl
@[simp] theorem State.reg_raise (s : State) (c : Cause) (w : Word) (q : Reg) : (s.raise c w).reg q = s.reg q := rfl

@[simp] theorem Regs.get_set_self (x : Regs) (r : Reg) (v : Word) : (x.set r v).get r = v := by
  cases r <;> rfl

theorem Regs.get_set_ne (x : Regs) (r q : Reg) (v : Word) (h : q ≠ r) : (x.set r v).get q = x.get q := by
  cases r <;> cases q <;> first | rfl | exact absurd rfl h

/-- A register file is determined by what its registers read as. -/
theorem Regs.ext_get (x y : Regs) (h : ∀ q, x.get q = y.get q) : x = y := by
  cases x
  cases y
  simp only [Regs.mk.injEq]
  exact ⟨h .src, h .srcs, h .ref0, h .ref1, h .ref2, h .ref3, h .refs, h .maxsad, h .pred2, h .out, h .dst, h .dsts,
    h .above, h .left, h .sum⟩

@[simp] theorem Regs.get_zero (r : Reg) : Regs.zero.get r = 0 := by cases r <;> rfl

@[simp] theorem State.reg_writeReg_self (s : State) (r : Reg) (v : Word) : (s.writeReg r v).reg r = v :=
  Regs.get_set_self _ _ _

theorem State.reg_writeReg_ne (s : State) (r q : Reg) (v : Word) (h : q ≠ r) : (s.writeReg r v).reg q = s.reg q :=
  Regs.get_set_ne _ _ _ _ h

@[simp] theorem State.reg_resetCore (s : State) (q : Reg) : s.resetCore.reg q = 0 := Regs.get_zero q

/-! ### Samples do not depend on what is not memory -/

@[simp] theorem State.smp_writeReg (s : State) (r : Reg) (v p : Word) (i : Int) (ss : Nat) :
    (s.writeReg r v).smp p i ss = s.smp p i ss := rfl

@[simp] theorem State.pix_writeReg (s : State) (r : Reg) (v p : Word) (stride x y ss : Nat) :
    (s.writeReg r v).pix p stride x y ss = s.pix p stride x y ss := rfl

@[simp] theorem State.smp_accept (s : State) (p : Word) (i : Int) (ss : Nat) :
    s.accept.smp p i ss = s.smp p i ss := rfl

/-! ### The state after reset -/

@[simp] theorem State.reset_ready : State.reset.ready = true := rfl

@[simp] theorem State.resetCore_ready (s : State) : s.resetCore.ready = true := rfl

@[simp] theorem State.raise_ready (s : State) (c : Cause) (w : Word) : (s.raise c w).ready = false := rfl

end Sys2Proof.Machine
end

