-- ==== Sys2Proof/Laws/Memory.lean ====
section
/-! SUPPORT. Memory: reading after writing, the canonical form, and the little-endian accesses of `n` bytes. -/

namespace Sys2Proof.Machine

/-! ### One byte -/

theorem Memory.read_eq_unwritten (m : Memory) (x : Nat) (h : ∀ c ∈ m, c.1 ≠ x) :
    Memory.read m x = Config.unwrittenByte := by
  induction m with
  | nil => rfl
  | cons c m ih =>
    have hx : x ≠ c.1 := fun e => h c (by simp) e.symm
    simp [Memory.read, hx, ih (fun d hd => h d (by simp [hd]))]

/-- Reading after a write, on memory whose addresses rise: the value at the address written, the old byte elsewhere. -/
theorem Memory.read_write (m : Memory) (hm : m.Pairwise (fun c d => c.1 < d.1)) (x : Nat) (v : Byte) (y : Nat) :
    Memory.read (Memory.write m x v) y = if y = x then v else Memory.read m y := by
  induction m with
  | nil =>
    by_cases hv : v = Config.unwrittenByte <;> by_cases hy : y = x <;> simp [Memory.write, Memory.read, hv, hy]
  | cons c m ih =>
    obtain ⟨a, b⟩ := c
    have hlt : ∀ d ∈ m, a < d.1 := (List.pairwise_cons.1 hm).1
    have hrec := ih (List.pairwise_cons.1 hm).2
    by_cases h1 : x < a
    · by_cases hv : v = Config.unwrittenByte
      · by_cases hy : y = x
        · have : Memory.read ((a, b) :: m) x = Config.unwrittenByte :=
            Memory.read_eq_unwritten _ _ (fun d hd => by
              rcases List.mem_cons.1 hd with rfl | hd
              · exact Nat.ne_of_gt h1
              · exact Nat.ne_of_gt (Nat.lt_trans h1 (hlt d hd)))
          simp [Memory.write, h1, hv, hy, this]
        · simp [Memory.write, h1, hv, hy]
      · by_cases hy : y = x <;> simp [Memory.write, h1, hv, Memory.read, hy]
    · by_cases h2 : x = a
      · subst h2
        by_cases hv : v = Config.unwrittenByte
        · by_cases hy : y = x
          · have : Memory.read m x = Config.unwrittenByte :=
              Memory.read_eq_unwritten _ _ (fun d hd => Nat.ne_of_gt (hlt d hd))
            simp [Memory.write, hv, hy, this]
          · simp [Memory.write, hv, hy, Memory.read]
        · by_cases hy : y = x <;> simp [Memory.write, hv, Memory.read, hy]
      · simp only [Memory.write, h1, h2, if_false, Memory.read, hrec]
        by_cases hy : y = a
        · have : ¬ a = x := fun e => h2 e.symm
          simp [hy, this]
        · simp [hy]

theorem Memory.mem_write {m : Memory} {x : Nat} {v : Byte} {c : Host.Cell} (h : c ∈ Memory.write m x v) :
    (c = (x, v) ∧ v ≠ Config.unwrittenByte) ∨ c ∈ m := by
  induction m with
  | nil =>
    by_cases hv : v = Config.unwrittenByte
    · simp [Memory.write, hv] at h
    · exact .inl ⟨by simpa [Memory.write, hv] using h, hv⟩
  | cons d m ih =>
    obtain ⟨a, b⟩ := d
    by_cases hv : v = Config.unwrittenByte
    · by_cases h1 : x < a
      · exact .inr (by simpa [Memory.write, h1, hv] using h)
      · by_cases h2 : x = a
        · exact .inr (by simp [Memory.write, h2, hv] at h; simp [h])
        · simp only [Memory.write, h1, h2, if_false, List.mem_cons] at h
          rcases h with h | h
          · exact .inr (by simp [h])
          · exact (ih h).imp id (fun k => by simp [k])
    · by_cases h1 : x < a
      · simp only [Memory.write, h1, hv, if_true, if_false, List.mem_cons] at h
        rcases h with h | h | h
        · exact .inl ⟨h, hv⟩
        · exact .inr (by simp [h])
        · exact .inr (by simp [h])
      · by_cases h2 : x = a
        · simp only [Memory.write, h2, hv, lt_irrefl, if_true, if_false, List.mem_cons] at h
          rcases h with h | h
          · exact .inl ⟨by simp [h, h2], hv⟩
          · exact .inr (by simp [h])
        · simp only [Memory.write, h1, h2, if_false, List.mem_cons] at h
          rcases h with h | h
          · exact .inr (by simp [h])
          · exact (ih h).imp id (fun k => by simp [k])

/-- A write of a byte below `2 ^ 32` keeps the canonical form. -/
theorem Memory.write_wf (m : Memory) (x : Nat) (v : Byte) (hx : x < 2 ^ 32) (hm : m.wf) :
    (Memory.write m x v).wf := by
  refine ⟨?_, fun c hc => ?_⟩
  · have hp := hm.1
    clear hm
    induction m with
    | nil => by_cases hv : v = Config.unwrittenByte <;> simp [Memory.write, hv]
    | cons d m ih =>
      obtain ⟨a, b⟩ := d
      have hlt : ∀ c ∈ m, a < c.1 := (List.pairwise_cons.1 hp).1
      have htl := (List.pairwise_cons.1 hp).2
      by_cases h1 : x < a
      · by_cases hv : v = Config.unwrittenByte
        · simpa [Memory.write, h1, hv] using hp
        · simp only [Memory.write, h1, hv, if_true, if_false]
          refine List.pairwise_cons.2 ⟨fun c hc => ?_, hp⟩
          rcases List.mem_cons.1 hc with rfl | hc
          · exact h1
          · exact Nat.lt_trans h1 (hlt c hc)
      · by_cases h2 : x = a
        · subst h2
          by_cases hv : v = Config.unwrittenByte
          · simpa [Memory.write, hv] using htl
          · simp only [Memory.write, lt_irrefl, hv, if_true, if_false]
            exact List.pairwise_cons.2 ⟨hlt, htl⟩
        · simp only [Memory.write, h1, h2, if_false]
          refine List.pairwise_cons.2 ⟨fun c hc => ?_, ih htl⟩
          rcases Memory.mem_write hc with ⟨rfl, -⟩ | hc
          · exact lt_of_le_of_ne (Nat.le_of_not_lt h1) (fun e => h2 e.symm)
          · exact hlt c hc
  · rcases Memory.mem_write hc with ⟨rfl, hv⟩ | hc
    · exact ⟨hx, hv⟩
    · exact hm.2 c hc

theorem Memory.wf_nil : Memory.wf [] := by decide

/-- The memory after reset is in the canonical form. -/
theorem State.reset_mem_wf : State.reset.mem.wf := Memory.wf_nil

/-! ### Two memories mixed (70_reset_and_hazards.md R281) -/

/-- A fold of picked writes keeps the canonical form, and every byte holds the old value or the value picked. -/
theorem Memory.mix_fold (m' : Memory) (pick : Nat → Bool) (l : List Nat) (acc : Memory) (hl : ∀ a ∈ l, a < 2 ^ 32)
    (hacc : acc.wf) :
    let r := l.foldl (fun acc a => if pick a then Memory.write acc a (Memory.read m' a) else acc) acc
    r.wf ∧ ∀ x, Memory.read r x = if x ∈ l ∧ pick x = true then Memory.read m' x else Memory.read acc x := by
  induction l generalizing acc with
  | nil => exact ⟨hacc, fun x => by simp⟩
  | cons a l ih =>
    have ha : a < 2 ^ 32 := hl a (by simp)
    have hl' : ∀ b ∈ l, b < 2 ^ 32 := fun b hb => hl b (by simp [hb])
    simp only [List.foldl_cons]
    by_cases hp : pick a = true
    · simp only [hp, if_true]
      obtain ⟨h1, h2⟩ := ih (Memory.write acc a (Memory.read m' a)) hl' (Memory.write_wf _ _ _ ha hacc)
      refine ⟨h1, fun x => ?_⟩
      rw [h2 x, Memory.read_write _ hacc.1]
      by_cases hx : x = a
      · subst hx
        simp [hp]
      · simp [hx]
    · simp only [hp]
      obtain ⟨h1, h2⟩ := ih acc hl' hacc
      refine ⟨h1, fun x => ?_⟩
      have := h2 x
      by_cases hx : x = a
      · subst hx
        simpa [hp] using this
      · simpa [hx] using this

/-- Mixing keeps the canonical form. -/
theorem Memory.mix_wf (m m' : Memory) (pick : Nat → Bool) (hm : m.wf) (hm' : m'.wf) : (m.mix m' pick).wf :=
  (Memory.mix_fold m' pick _ m (fun a ha => by
    rcases List.mem_append.1 ha with h | h <;> obtain ⟨c, hc, rfl⟩ := List.mem_map.1 h
    exacts [(hm.2 c hc).1, (hm'.2 c hc).1]) hm).1

/-- A byte of a mix is the second memory's where the choice says so, and the first one's elsewhere. -/
theorem Memory.read_mix (m m' : Memory) (pick : Nat → Bool) (hm : m.wf) (hm' : m'.wf) (x : Nat) :
    Memory.read (m.mix m' pick) x = if pick x = true then Memory.read m' x else Memory.read m x := by
  have h := (Memory.mix_fold m' pick (m.map Prod.fst ++ m'.map Prod.fst) m (fun a ha => by
    rcases List.mem_append.1 ha with h | h <;> obtain ⟨c, hc, rfl⟩ := List.mem_map.1 h
    exacts [(hm.2 c hc).1, (hm'.2 c hc).1]) hm).2 x
  refine h.trans ?_
  by_cases hx : x ∈ m.map Prod.fst ++ m'.map Prod.fst
  · simp [hx]
  · have h1 : Memory.read m x = Config.unwrittenByte := Memory.read_eq_unwritten _ _ (fun c hc he => hx (by
      subst he; exact List.mem_append_left _ (List.mem_map_of_mem hc)))
    have h2 : Memory.read m' x = Config.unwrittenByte := Memory.read_eq_unwritten _ _ (fun c hc he => hx (by
      subst he; exact List.mem_append_right _ (List.mem_map_of_mem hc)))
    simp [h1, h2]

/-! ### `n` bytes, little-endian (20_memory.md R61, R63, R64) -/

theorem Memory.readLE_lt (m : Memory) (a : Int) (n : Nat) : Memory.readLE m a n < 256 ^ n := by
  induction n generalizing a with
  | zero => simp [Memory.readLE]
  | succ n ih =>
    have h1 := (Memory.read m a.toNat).isLt
    have h2 := ih (a + 1)
    simp only [Memory.readLE, pow_succ]
    omega

/-- What a little-endian read gives depends on the bytes read alone. -/
theorem Memory.readLE_congr (m m' : Memory) (a : Int) (n : Nat)
    (h : ∀ k : Nat, k < n → Memory.read m (a + (k : Int)).toNat = Memory.read m' (a + (k : Int)).toNat) :
    Memory.readLE m a n = Memory.readLE m' a n := by
  induction n generalizing a with
  | zero => rfl
  | succ n ih =>
    have h0 := h 0 (by omega)
    have hr := ih (a + 1) (fun k hk => by
      have := h (k + 1) (by omega)
      have e : a + ((k + 1 : Nat) : Int) = a + 1 + (k : Int) := by push_cast; ring
      rwa [e] at this)
    simp only [Memory.readLE, hr]
    simp at h0
    rw [h0]

/-- A little-endian write of bytes below `2 ^ 32` keeps the canonical form. -/
theorem Memory.writeLE_wf (m : Memory) (a : Int) (n v : Nat) (ha : 0 ≤ a) (hn : a + (n : Int) ≤ 2 ^ 32) (hm : m.wf) :
    (Memory.writeLE m a n v).wf := by
  induction n generalizing m a v with
  | zero => exact hm
  | succ n ih =>
    push_cast at hn
    exact ih _ (a + 1) _ (by omega) (by omega) (Memory.write_wf m _ _ (by omega) hm)

/-- A little-endian write: byte `k` of the value at the `k`-th address, every other byte unchanged. -/
theorem Memory.read_writeLE (m : Memory) (a : Int) (n v : Nat) (ha : 0 ≤ a) (hn : a + (n : Int) ≤ 2 ^ 32) (hm : m.wf)
    (y : Nat) :
    Memory.read (Memory.writeLE m a n v) y =
      if a ≤ (y : Int) ∧ (y : Int) < a + (n : Int) then BitVec.ofNat 8 (v / 256 ^ (y - a.toNat)) else Memory.read m y := by
  induction n generalizing m a v with
  | zero =>
    have : ¬ (a ≤ (y : Int) ∧ (y : Int) < a + ((0 : Nat) : Int)) := by push_cast; omega
    simp [Memory.writeLE]
  | succ n ih =>
    push_cast at hn
    have hw := Memory.write_wf m a.toNat (BitVec.ofNat 8 v) (by omega) hm
    rw [Memory.writeLE, ih _ (a + 1) _ (by omega) (by omega) hw, Memory.read_write m hm.1]
    by_cases h1 : a + 1 ≤ (y : Int) ∧ (y : Int) < a + 1 + (n : Int)
    · have h2 : a ≤ (y : Int) ∧ (y : Int) < a + ((n + 1 : Nat) : Int) := by push_cast; omega
      rw [if_pos h1, if_pos h2]
      have e : y - a.toNat = (y - (a + 1).toNat) + 1 := by omega
      rw [e, Nat.div_div_eq_div_mul, pow_succ, Nat.mul_comm]
    · rw [if_neg h1]
      by_cases h2 : y = a.toNat
      · have h3 : a ≤ (y : Int) ∧ (y : Int) < a + ((n + 1 : Nat) : Int) := by push_cast; omega
        rw [if_pos h2, if_pos h3]
        simp [h2]
      · have h3 : ¬ (a ≤ (y : Int) ∧ (y : Int) < a + ((n + 1 : Nat) : Int)) := by push_cast; omega
        rw [if_neg h2, if_neg h3]

/-- A value read back where it was just stored. -/
theorem Memory.readLE_writeLE (m : Memory) (a : Int) (n v : Nat) (ha : 0 ≤ a) (hn : a + (n : Int) ≤ 2 ^ 32)
    (hm : m.wf) (hv : v < 256 ^ n) : Memory.readLE (Memory.writeLE m a n v) a n = v := by
  suffices h : ∀ (M : Memory) (j : Nat) (u : Nat) (b : Int), (∀ k : Nat, k < j →
      Memory.read M (b + (k : Int)).toNat = BitVec.ofNat 8 (u / 256 ^ k)) → u < 256 ^ j → Memory.readLE M b j = u by
    refine h _ n v a (fun k hk => ?_) hv
    rw [Memory.read_writeLE m a n v ha hn hm, if_pos (by omega)]
    congr 2
    have : (a + (k : Int)).toNat - a.toNat = k := by omega
    rw [this]
  intro M j
  induction j with
  | zero => intro u b _ hu; simp [Memory.readLE] at hu ⊢; omega
  | succ j ih =>
    intro u b hb hu
    have hr := ih (u / 256) (b + 1) (fun k hk => by
      have := hb (k + 1) (by omega)
      have e : b + ((k + 1 : Nat) : Int) = b + 1 + (k : Int) := by push_cast; ring
      rw [e] at this
      rw [this, Nat.div_div_eq_div_mul, pow_succ, Nat.mul_comm]) (by
        rw [pow_succ] at hu
        exact Nat.div_lt_of_lt_mul (by omega))
    have h0 := hb 0 (by omega)
    simp at h0
    simp only [Memory.readLE, hr, h0, BitVec.toNat_ofNat]
    omega

/-! ### The stores of a command -/

/-- Each store lies in the address space. -/
abbrev StoresInRange (n : Nat) (stores : List (Int × Nat)) : Prop :=
  ∀ st ∈ stores, 0 ≤ st.1 ∧ st.1 + (n : Int) ≤ 2 ^ 32

theorem Memory.storeAll_wf (m : Memory) (n : Nat) (stores : List (Int × Nat)) (hr : StoresInRange n stores)
    (hm : m.wf) : (Memory.storeAll m n stores).wf := by
  induction stores generalizing m with
  | nil => exact hm
  | cons st rest ih =>
    have h := hr st (by simp)
    exact ih _ (fun t ht => hr t (by simp [ht])) (Memory.writeLE_wf m st.1 n st.2 h.1 h.2 hm)

/-- A byte no store covers is unchanged. -/
theorem Memory.read_storeAll_outside (m : Memory) (n : Nat) (stores : List (Int × Nat)) (hr : StoresInRange n stores)
    (hm : m.wf) (y : Nat) (hy : ∀ st ∈ stores, ¬ (st.1 ≤ (y : Int) ∧ (y : Int) < st.1 + (n : Int))) :
    Memory.read (Memory.storeAll m n stores) y = Memory.read m y := by
  induction stores generalizing m with
  | nil => rfl
  | cons st rest ih =>
    have h := hr st (by simp)
    have hw := Memory.writeLE_wf m st.1 n st.2 h.1 h.2 hm
    have hrec := ih _ (fun t ht => hr t (by simp [ht])) hw (fun t ht => hy t (by simp [ht]))
    rw [Memory.storeAll, List.foldl_cons]
    rw [Memory.storeAll] at hrec
    rw [hrec, Memory.read_writeLE m st.1 n st.2 h.1 h.2 hm, if_neg (hy st (by simp))]

/-- Where no two stores meet, each stored value is read back. -/
theorem Memory.readLE_storeAll (m : Memory) (n : Nat) (stores : List (Int × Nat)) (hr : StoresInRange n stores)
    (hm : m.wf) (hd : stores.Pairwise (fun s t => s.1 + (n : Int) ≤ t.1 ∨ t.1 + (n : Int) ≤ s.1))
    (st : Int × Nat) (hst : st ∈ stores) (hv : st.2 < 256 ^ n) :
    Memory.readLE (Memory.storeAll m n stores) st.1 n = st.2 := by
  induction stores generalizing m with
  | nil => simp at hst
  | cons t rest ih =>
    have h := hr t (by simp)
    have hw := Memory.writeLE_wf m t.1 n t.2 h.1 h.2 hm
    have hd' := List.pairwise_cons.1 hd
    have hr' : StoresInRange n rest := fun u hu => hr u (by simp [hu])
    rw [Memory.storeAll, List.foldl_cons]
    rcases List.mem_cons.1 hst with rfl | hin
    · rw [← Memory.readLE_writeLE m st.1 n st.2 h.1 h.2 hm hv]
      refine Memory.readLE_congr _ _ _ _ (fun k hk => ?_)
      rw [Memory.readLE_writeLE m st.1 n st.2 h.1 h.2 hm hv]
      exact Memory.read_storeAll_outside _ n rest hr' hw _ (fun u hu => by
        have := hd'.1 u hu
        omega)
    · exact ih _ hr' hw hd'.2 hin

end Sys2Proof.Machine
end

