-- ==== Sys2Proof/Laws/Kernel.lean ====
section
/-! SUPPORT. What a kernel command can do, said once: the checks, the two outcomes, and the addresses of a block. -/

namespace Sys2Proof

/-- What an accessible address is. -/
theorem Platform.accessible_iff (p : Platform) (a : Int) :
    p.accessible a = true ↔ 0 ≤ a ∧ a < 2 ^ 32 ∧ p.mapped a.toNat = true := by
  simp [Platform.accessible, and_assoc]

theorem Tag.ss_pos (t : Tag) : 0 < t.ss := by cases t <;> decide

theorem Tag.ss_cases (t : Tag) : t.ss = 1 ∨ t.ss = 2 := by cases t <;> decide

theorem Dim.size_pos (d : Dim) : 0 < d.size := by cases d <;> decide

theorem Dim.size_le (d : Dim) : d.size ≤ 64 := by cases d <;> decide

end Sys2Proof

namespace Sys2Proof.Machine

/-! ### The checks -/

theorem KernelCheck.strideFault_eq_none_iff (c : KernelCheck) :
    c.strideFault = none ↔ ∀ p ∈ c.destStride, p.1 ≤ p.2.toNat := by
  unfold KernelCheck.strideFault
  cases h : c.destStride with
  | none => simp
  | some p =>
    by_cases hlt : p.2.toNat < p.1
    · simp [hlt]
    · simp [hlt]
      omega

theorem KernelCheck.alignFault_eq_none_iff (c : KernelCheck) :
    c.alignFault = none ↔ ∀ p ∈ c.pointers, p.1.toNat % p.2 = 0 := by
  unfold KernelCheck.alignFault
  cases h : c.pointers.find? (fun p => decide (p.1.toNat % p.2 ≠ 0)) with
  | none => simpa using h
  | some p =>
    have h1 := List.find?_some h
    have h2 := List.mem_of_find?_eq_some h
    simp only [reduceCtorEq, false_iff]
    intro hall
    simp [hall p h2] at h1

theorem KernelCheck.accessFault_eq_none_iff (c : KernelCheck) (p : Platform) :
    c.accessFault p = none ↔ ∀ a ∈ c.footprint, p.accessible a = true := by
  unfold KernelCheck.accessFault
  cases h : c.footprint.find? (fun a => !p.accessible a) with
  | none => simpa using h
  | some a =>
    have h1 := List.find?_some h
    have h2 := List.mem_of_find?_eq_some h
    simp only [reduceCtorEq, false_iff]
    intro hall
    simp [hall a h2] at h1

theorem KernelCheck.firstFault_eq_none_iff (c : KernelCheck) (p : Platform) :
    c.firstFault p = none ↔ (∀ q ∈ c.destStride, q.1 ≤ q.2.toNat) ∧ (∀ q ∈ c.pointers, q.1.toNat % q.2 = 0) ∧
      (∀ a ∈ c.footprint, p.accessible a = true) := by
  rw [← c.strideFault_eq_none_iff, ← c.alignFault_eq_none_iff, ← c.accessFault_eq_none_iff p]
  unfold KernelCheck.firstFault
  cases c.strideFault <;> cases c.alignFault <;> simp

theorem KernelCheck.strideFault_some (c : KernelCheck) (f : Cause × Word) (h : c.strideFault = some f) :
    f.1 = .dstStride ∧ ∃ p ∈ c.destStride, p.2.toNat < p.1 ∧ f.2 = p.2 := by
  unfold KernelCheck.strideFault at h
  cases hc : c.destStride with
  | none => simp [hc] at h
  | some p =>
    by_cases hlt : p.2.toNat < p.1
    · simp only [hc, hlt, if_true, Option.some.injEq] at h
      subst h
      exact ⟨rfl, p, rfl, hlt, rfl⟩
    · simp [hc, hlt] at h

theorem KernelCheck.alignFault_some (c : KernelCheck) (f : Cause × Word) (h : c.alignFault = some f) :
    f.1 = .misaligned ∧ ∃ p ∈ c.pointers, p.1.toNat % p.2 ≠ 0 ∧ f.2 = p.1 := by
  unfold KernelCheck.alignFault at h
  cases hc : c.pointers.find? (fun p => decide (p.1.toNat % p.2 ≠ 0)) with
  | none =>
    rw [hc] at h
    cases h
  | some p =>
    have h1 := List.find?_some hc
    simp only [hc, Option.some.injEq] at h
    subst h
    exact ⟨rfl, p, List.mem_of_find?_eq_some hc, by simpa using h1, rfl⟩

theorem KernelCheck.accessFault_some (c : KernelCheck) (p : Platform) (f : Cause × Word)
    (h : c.accessFault p = some f) :
    f.1 = .access ∧ ∃ a ∈ c.footprint, p.accessible a = false ∧ f.2 = BitVec.ofInt 32 a := by
  unfold KernelCheck.accessFault at h
  cases hc : c.footprint.find? (fun a => !p.accessible a) with
  | none => simp [hc] at h
  | some a =>
    have h1 := List.find?_some hc
    simp only [hc, Option.some.injEq] at h
    subst h
    exact ⟨rfl, a, List.mem_of_find?_eq_some hc, by simpa using h1, rfl⟩

/-- The cause a check reports is never "no fault". -/
theorem KernelCheck.firstFault_cause (c : KernelCheck) (p : Platform) (f : Cause × Word)
    (h : c.firstFault p = some f) : f.1 ≠ .noFault := by
  unfold KernelCheck.firstFault at h
  cases hs : c.strideFault with
  | some g =>
    simp only [hs, Option.some.injEq] at h
    rw [← h, (c.strideFault_some g hs).1]
    simp
  | none =>
    cases ha : c.alignFault with
    | some g =>
      simp only [hs, ha, Option.some.injEq] at h
      rw [← h, (c.alignFault_some g ha).1]
      simp
    | none =>
      simp only [hs, ha] at h
      rw [(c.accessFault_some p f h).1]
      simp

/-! ### The command -/

/-- Everything a kernel command can do: it takes the first fault, or every check passes and it retires. -/
theorem runKernel_cases (c : KernelCheck) (effect : State → State) (s : State) :
    (∃ cause info, c.firstFault s.platform = some (cause, info) ∧ cause ≠ .noFault ∧
      runKernel c effect s = .next (s.raise cause info)) ∨
    (c.firstFault s.platform = none ∧ runKernel c effect s = .next (effect s).retire) := by
  unfold runKernel
  cases h : c.firstFault s.platform with
  | none => exact .inr ⟨rfl, rfl⟩
  | some f => exact .inl ⟨f.1, f.2, rfl, c.firstFault_cause _ f h, rfl⟩

/-- With every check passed, a kernel command has its effect and retires. -/
theorem runKernel_of_pass (c : KernelCheck) (effect : State → State) (s : State)
    (h : c.firstFault s.platform = none) : runKernel c effect s = .next (effect s).retire := by
  simp [runKernel, h]

/-- With a check failed, a kernel command takes the fault and does nothing else. -/
theorem runKernel_of_fault (c : KernelCheck) (effect : State → State) (s : State) (cause : Cause) (info : Word)
    (h : c.firstFault s.platform = some (cause, info)) : runKernel c effect s = .next (s.raise cause info) := by
  simp [runKernel, h]

/-! ### Addresses -/

theorem mem_smpBytes {p : Word} {i : Int} {ss : Nat} {a : Int} :
    a ∈ smpBytes p i ss ↔ ∃ k : Nat, k < ss ∧ a = (p.toNat : Int) + i * (ss : Int) + (k : Int) := by
  simp [smpBytes, smpAddr, eq_comm]

/-- The bytes of a block (20_memory.md R70). -/
theorem mem_blk {p : Word} {stride w h ss : Nat} {a : Int} :
    a ∈ blk p stride w h ss ↔ ∃ y < h, ∃ x < w, ∃ k < ss, a = ((p.toNat + (y * stride + x) * ss + k : Nat) : Int) := by
  simp only [blk, List.mem_flatMap, List.mem_range, mem_smpBytes, pixIndex]
  push_cast
  rfl

/-- The bytes of the samples of an array (20_memory.md R71). -/
theorem mem_row {p : Word} {idx : List Int} {ss : Nat} {a : Int} :
    a ∈ row p idx ss ↔ ∃ i ∈ idx, ∃ k : Nat, k < ss ∧ a = (p.toNat : Int) + i * (ss : Int) + (k : Int) := by
  simp only [row, List.mem_flatMap, mem_smpBytes]

theorem mem_idxFrom {lo : Int} {n : Nat} {i : Int} : i ∈ idxFrom lo n ↔ ∃ j < n, i = lo + (j : Int) := by
  simp [idxFrom, eq_comm]

/-! ### Samples -/

/-- A sample is below `256 ^ ss`. -/
theorem State.smp_lt (s : State) (p : Word) (i : Int) (ss : Nat) : s.smp p i ss < 256 ^ ss :=
  Memory.readLE_lt _ _ _

theorem State.pix_lt (s : State) (p : Word) (stride x y ss : Nat) : s.pix p stride x y ss < 256 ^ ss :=
  Memory.readLE_lt _ _ _

end Sys2Proof.Machine
end

