-- ==== Sys2Proof/Laws/Commands.lean ====
section
/-! SUPPORT. The shared operations of the command families, each said once: finite sums, when the operand checks pass,
and what an intra command does to memory. -/

namespace Sys2Proof.Machine

/-! ### Sums -/

theorem sumTo_eq_sum (n : Nat) (f : Nat → Nat) : sumTo n f = ∑ k ∈ Finset.range n, f k := by
  induction n with
  | zero => rfl
  | succ n ih =>
    rw [Finset.sum_range_succ, ← ih]
    simp [sumTo, List.range_succ]

theorem sumTo_le (n b : Nat) (f : Nat → Nat) (h : ∀ k < n, f k ≤ b) : sumTo n f ≤ n * b := by
  rw [sumTo_eq_sum]
  calc ∑ k ∈ Finset.range n, f k ≤ ∑ _k ∈ Finset.range n, b :=
        Finset.sum_le_sum (fun k hk => h k (Finset.mem_range.1 hk))
    _ = n * b := by simp

theorem sumTo_congr (n : Nat) (f g : Nat → Nat) (h : ∀ k < n, f k = g k) : sumTo n f = sumTo n g := by
  rw [sumTo_eq_sum, sumTo_eq_sum]
  exact Finset.sum_congr rfl (fun k hk => h k (Finset.mem_range.1 hk))

theorem absdiff_eq_natAbs (a b : Nat) : absdiff a b = ((a : Int) - (b : Int)).natAbs := by
  unfold absdiff
  split <;> omega

/-! ### When the operand checks pass -/

theorem blockOk_iff (s : State) (tag : Tag) (p : Word) (stride w h : Nat) :
    s.BlockOk tag p stride w h ↔
      p.toNat % tag.ss = 0 ∧ ∀ a ∈ blk p stride w h tag.ss, s.platform.accessible a = true := by
  refine and_congr Iff.rfl ⟨fun hb a ha => ?_, fun hb y hy x hx k hk => hb _ (mem_blk.2 ⟨y, hy, x, hx, k, hk, rfl⟩)⟩
  obtain ⟨y, hy, x, hx, k, hk, rfl⟩ := mem_blk.1 ha
  exact hb y hy x hx k hk

theorem rowOk_iff (s : State) (tag : Tag) (p : Word) (lo : Int) (n : Nat) :
    s.RowOk tag p lo n ↔
      p.toNat % tag.ss = 0 ∧ ∀ a ∈ row p (idxFrom lo n) tag.ss, s.platform.accessible a = true := by
  refine and_congr Iff.rfl ⟨fun hb a ha => ?_, fun hb j hj k hk =>
    hb _ (mem_row.2 ⟨_, mem_idxFrom.2 ⟨j, hj, rfl⟩, k, hk, rfl⟩)⟩
  obtain ⟨i, hi, k, hk, rfl⟩ := mem_row.1 ha
  obtain ⟨j, hj, rfl⟩ := mem_idxFrom.1 hi
  exact hb j hj k hk

theorem sadCheck_pass (w h : Dim) (tag : Tag) (s : State) (hs : s.SrcRefOk 0 w h tag) :
    (sadCheck w h tag s).firstFault s.platform = none := by
  have h1 := (blockOk_iff _ _ _ _ _ _).1 hs.1
  have h2 := (blockOk_iff _ _ _ _ _ _).1 hs.2
  refine (KernelCheck.firstFault_eq_none_iff _ _).2 ⟨by simp [sadCheck], fun q hq => ?_, fun a ha => ?_⟩
  · simp only [sadCheck, samplePointer, List.mem_cons, List.not_mem_nil, or_false] at hq
    rcases hq with rfl | rfl
    · exact h1.1
    · exact h2.1
  · rcases List.mem_append.1 ha with ha | ha
    · exact h1.2 a ha
    · exact h2.2 a ha

theorem sadx4Check_pass (w h : Dim) (tag : Tag) (s : State) (hs : ∀ k < 4, s.SrcRefOk k w h tag)
    (ho : (s.reg .out).toNat % 4 = 0) (ha : ∀ j < 16, s.platform.accessible (((s.reg .out).toNat + j : Nat) : Int) = true) :
    (sadx4Check w h tag s).firstFault s.platform = none := by
  have hb : ∀ k < 4, _ := fun k hk => (blockOk_iff _ _ _ _ _ _).1 (hs k hk).2
  have h0 := (blockOk_iff _ _ _ _ _ _).1 (hs 0 (by decide)).1
  have b0 := hb 0 (by decide)
  have b1 := hb 1 (by decide)
  have b2 := hb 2 (by decide)
  have b3 := hb 3 (by decide)
  refine (KernelCheck.firstFault_eq_none_iff _ _).2 ⟨by simp [sadx4Check], fun q hq => ?_, fun a hmem => ?_⟩
  · simp only [sadx4Check, samplePointer, List.mem_cons, List.not_mem_nil, or_false] at hq
    rcases hq with rfl | rfl | rfl | rfl | rfl | rfl
    exacts [h0.1, b0.1, b1.1, b2.1, b3.1, ho]
  · simp only [sadx4Check, List.mem_append] at hmem
    rcases hmem with ((((hm | hm) | hm) | hm) | hm) | hm
    · exact h0.2 a hm
    · exact b0.2 a hm
    · exact b1.2 a hm
    · exact b2.2 a hm
    · exact b3.2 a hm
    · obtain ⟨j, hj, rfl⟩ := mem_idxFrom.1 hm
      have := ha j hj
      push_cast at this
      exact this

theorem sadavgCheck_pass (w h : Dim) (tag : Tag) (s : State) (hs : s.SrcRefOk 0 w h tag)
    (hp : s.BlockOk tag (s.reg .pred2) w.size w.size h.size) :
    (sadavgCheck w h tag s).firstFault s.platform = none := by
  have h1 := (blockOk_iff _ _ _ _ _ _).1 hs.1
  have h2 := (blockOk_iff _ _ _ _ _ _).1 hs.2
  have h3 := (blockOk_iff _ _ _ _ _ _).1 hp
  refine (KernelCheck.firstFault_eq_none_iff _ _).2 ⟨by simp [sadavgCheck], fun q hq => ?_, fun a ha => ?_⟩
  · simp only [sadavgCheck, samplePointer, List.mem_cons, List.not_mem_nil, or_false] at hq
    rcases hq with rfl | rfl | rfl
    exacts [h1.1, h2.1, h3.1]
  · simp only [sadavgCheck, List.mem_append] at ha
    rcases ha with (ha | ha) | ha
    exacts [h1.2 a ha, h2.2 a ha, h3.2 a ha]

/-- A neighbour array passes when the mode does not read it, or when its pointer and bytes are in order. -/
abbrev State.NeighbourOk (s : State) (tag : Tag) (r : Reg) (idx : List Int) : Prop :=
  idx = [] ∨ ((s.reg r).toNat % tag.ss = 0 ∧ ∀ a ∈ row (s.reg r) idx tag.ss, s.platform.accessible a = true)

theorem neighbourOk_of_rowOk (s : State) (tag : Tag) (r : Reg) (lo : Int) (n : Nat)
    (h : s.RowOk tag (s.reg r) lo n) : s.NeighbourOk tag r (idxFrom lo n) :=
  .inr ((rowOk_iff _ _ _ _ _).1 h)

theorem neighbourPointer_ok (s : State) (tag : Tag) (r : Reg) (idx : List Int) (h : s.NeighbourOk tag r idx) :
    ∀ q ∈ neighbourPointer idx s tag r, q.1.toNat % q.2 = 0 := by
  intro q hq
  rcases h with rfl | h
  · simp [neighbourPointer] at hq
  · unfold neighbourPointer at hq
    split at hq
    · simp at hq
    · simp only [samplePointer, List.mem_singleton] at hq
      subst hq
      exact h.1

theorem neighbourRow_ok (s : State) (tag : Tag) (r : Reg) (idx : List Int) (h : s.NeighbourOk tag r idx) :
    ∀ a ∈ row (s.reg r) idx tag.ss, s.platform.accessible a = true := by
  intro a ha
  rcases h with rfl | h
  · simp [row] at ha
  · exact h.2 a ha

theorem ipredCheck_pass (n : Dim) (tag : Tag) (nb : Neighbours) (s : State) (hd : s.DestOk n tag)
    (ha : s.NeighbourOk tag .above nb.above) (hl : s.NeighbourOk tag .left nb.left) :
    (ipredCheck n tag nb s).firstFault s.platform = none := by
  have h1 := (blockOk_iff _ _ _ _ _ _).1 hd.2
  refine (KernelCheck.firstFault_eq_none_iff _ _).2 ⟨fun q hq => ?_, fun q hq => ?_, fun a hmem => ?_⟩
  · simp only [ipredCheck, Option.mem_def, Option.some.injEq] at hq
    subst hq
    exact hd.1
  · simp only [ipredCheck, List.mem_cons, List.mem_append] at hq
    rcases hq with rfl | hq | hq
    · exact h1.1
    · exact neighbourPointer_ok s tag _ _ ha q hq
    · exact neighbourPointer_ok s tag _ _ hl q hq
  · simp only [ipredCheck, List.mem_append] at hmem
    rcases hmem with (hmem | hmem) | hmem
    · exact h1.2 a hmem
    · exact neighbourRow_ok s tag _ _ ha a hmem
    · exact neighbourRow_ok s tag _ _ hl a hmem

/-! ### The stores of an intra command -/

theorem mem_ipredStores {n : Dim} {tag : Tag} {pred : Predictor} {s : State} {st : Int × Nat} :
    st ∈ ipredStores n tag pred s ↔ ∃ r < n.size, ∃ c < n.size,
      st = (s.dstAddr tag.ss r c, pred (s.aboveAt tag.ss) (s.leftAt tag.ss) r c) := by
  simp [ipredStores, eq_comm]

theorem State.dstAddr_eq (s : State) (ss r c : Nat) :
    s.dstAddr ss r c = (((s.reg .dst).toNat + (r * (s.reg .dsts).toNat + c) * ss : Nat) : Int) := by
  simp [State.dstAddr, smpAddr, pixIndex]

/-- A later row, or a later column of the same row, lies beyond an earlier sample. -/
theorem sampleIndex_lt {n stride r c r' c' : Nat} (hn : n ≤ stride) (hc : c < n) (h : r < r' ∨ (r = r' ∧ c < c')) :
    r * stride + c + 1 ≤ r' * stride + c' := by
  rcases h with h | ⟨rfl, h⟩
  · have : (r + 1) * stride ≤ r' * stride := Nat.mul_le_mul_right _ h
    rw [Nat.add_mul] at this
    omega
  · omega

/-- The stores of an intra command do not meet, and they lie in its destination block. -/
theorem ipredStores_pairwise (n : Dim) (tag : Tag) (pred : Predictor) (s : State)
    (hn : n.size ≤ (s.reg .dsts).toNat) :
    (ipredStores n tag pred s).Pairwise (fun u v => u.1 + (tag.ss : Int) ≤ v.1 ∨ v.1 + (tag.ss : Int) ≤ u.1) := by
  have key : ∀ r c r' c' : Nat, c < n.size → (r < r' ∨ (r = r' ∧ c < c')) →
      s.dstAddr tag.ss r c + (tag.ss : Int) ≤ s.dstAddr tag.ss r' c' := by
    intro r c r' c' hc h
    have h1 := sampleIndex_lt (n := n.size) hn hc h
    have h2 : (r * (s.reg .dsts).toNat + c + 1) * tag.ss ≤ (r' * (s.reg .dsts).toNat + c') * tag.ss :=
      Nat.mul_le_mul_right _ h1
    rw [Nat.add_mul, Nat.one_mul] at h2
    rw [s.dstAddr_eq, s.dstAddr_eq]
    omega
  unfold ipredStores
  rw [List.pairwise_flatMap]
  refine ⟨fun r _ => ?_, ?_⟩
  · rw [List.pairwise_map]
    exact (List.pairwise_lt_range).imp_of_mem
      (fun {c d} hc _ h => .inl (key r c r d (List.mem_range.1 hc) (.inr ⟨rfl, h⟩)))
  · refine (List.pairwise_lt_range).imp (fun {r r'} h u hu v hv => ?_)
    obtain ⟨c, hc, rfl⟩ := List.mem_map.1 hu
    obtain ⟨d, -, rfl⟩ := List.mem_map.1 hv
    exact .inl (key r c r' d (List.mem_range.1 hc) (.inl h))

theorem ipredStores_inRange (n : Dim) (tag : Tag) (pred : Predictor) (s : State) (hd : s.DestOk n tag) :
    StoresInRange tag.ss (ipredStores n tag pred s) := by
  intro st hst
  obtain ⟨r, hr, c, hc, rfl⟩ := mem_ipredStores.1 hst
  have hpos := tag.ss_pos
  have h := (Platform.accessible_iff _ _).1 (hd.2.2 r hr c hc (tag.ss - 1) (by omega))
  rw [s.dstAddr_eq]
  refine ⟨by omega, ?_⟩
  have := h.2.1
  push_cast at this ⊢
  omega

/-- What an intra command does, said once: with its operands in order and its predictor in the range of a sample, it
retires with the predicted block in memory and nothing else changed. -/
theorem execIpred_of_pass (n : Dim) (tag : Tag) (nb : Neighbours) (pred : Predictor) (s : State) (hm : s.mem.wf)
    (hd : s.DestOk n tag) (ha : s.NeighbourOk tag .above nb.above) (hl : s.NeighbourOk tag .left nb.left)
    (hp : ∀ r < n.size, ∀ c < n.size, pred (s.aboveAt tag.ss) (s.leftAt tag.ss) r c < 256 ^ tag.ss) :
    ∃ t, execIpred n tag nb pred s = .next t ∧
      PredictedBlock s t n tag (pred (s.aboveAt tag.ss) (s.leftAt tag.ss)) := by
  have hpass := ipredCheck_pass n tag nb s hd ha hl
  have hr := ipredStores_inRange n tag pred s hd
  refine ⟨_, runKernel_of_pass _ _ _ hpass, rfl, fun r hr' c hc => ?_, fun a hout => ?_⟩
  · have hin : (s.dstAddr tag.ss r c, pred (s.aboveAt tag.ss) (s.leftAt tag.ss) r c) ∈ ipredStores n tag pred s :=
      mem_ipredStores.2 ⟨r, hr', c, hc, rfl⟩
    have := Memory.readLE_storeAll s.mem tag.ss _ hr hm (ipredStores_pairwise n tag pred s hd.1) _ hin (hp r hr' c hc)
    rw [s.dstAddr_eq] at this
    exact this
  · refine Memory.read_storeAll_outside s.mem tag.ss _ hr hm a (fun st hst hcov => hout ?_)
    obtain ⟨r, hr', c, hc, rfl⟩ := mem_ipredStores.1 hst
    simp only [s.dstAddr_eq] at hcov
    exact ⟨r, hr', c, hc, a - ((s.reg .dst).toNat + (r * (s.reg .dsts).toNat + c) * tag.ss), by omega, by omega⟩

/-- An intra command never changes a register, and answers a next state. -/
theorem execIpred_next (n : Dim) (tag : Tag) (nb : Neighbours) (pred : Predictor) (s : State) :
    ∃ t, execIpred n tag nb pred s = .next t ∧ t.regs = s.regs ∧ t.status.gt = s.status.gt ∧
      t.platform = s.platform ∧ t.host = s.host := by
  rcases runKernel_cases (ipredCheck n tag nb s) _ s with ⟨c, info, -, -, h⟩ | ⟨-, h⟩
  · exact ⟨_, h, rfl, rfl, rfl, rfl⟩
  · exact ⟨_, h, rfl, rfl, rfl, rfl⟩

end Sys2Proof.Machine
end

