-- ==== Sys2Proof/Laws/PerInstr.lean ====
section
/-! SUPPORT. What holds of every instruction as syntax, one lemma per constructor. `RowMatch`: the word of an
instruction has the fixed bits of its row of the opcode table (30_encoding.md R121), whatever its operands. -/

namespace Sys2Proof.Laws

/-- The word of the instruction under its row's mask is its row's match. -/
def RowMatch.Statement (i : Instr) : Prop := encode i &&& i.tableMask = i.tableMatch

/-- An immediate touches none of the bits the mask of format I keeps. -/
theorem imm_and_mask (imm : BitVec 16) : imm.setWidth 32 &&& (0xFC3F0000 : Word) = 0 := by
  apply BitVec.eq_of_getLsbD_eq
  intro k hk
  by_cases h : k < 16
  · have : (0xFC3F0000 : Word).getLsbD k = false := by
      interval_cases k <;> decide
    rw [BitVec.getLsbD_and, this, Bool.and_false]
    simp
  · have : imm.getLsbD k = false := BitVec.getLsbD_of_ge _ _ (by omega)
    rw [BitVec.getLsbD_and, BitVec.getLsbD_setWidth, this]
    simp

/-- A word of format I is its operation and register fields, with the immediate in the low half. -/
theorem encodeI_eq_or (op : Nat) (rd : Reg) (imm : BitVec 16) :
    encodeI op rd imm = BitVec.ofNat 32 (op * 2 ^ 26 + rd.number * 2 ^ 22) ||| imm.setWidth 32 := by
  apply BitVec.eq_of_toNat_eq
  have h := imm.isLt
  have e : op * 2 ^ 26 + rd.number * 2 ^ 22 = 2 ^ 16 * (op * 2 ^ 10 + rd.number * 2 ^ 6) := by ring
  simp only [encodeI, BitVec.toNat_or, BitVec.toNat_ofNat, BitVec.toNat_setWidth]
  rw [e, Nat.mod_eq_of_lt (a := imm.toNat) (by omega)]
  have hm : 2 ^ 16 * (op * 2 ^ 10 + rd.number * 2 ^ 6) % 2 ^ 32 = 2 ^ 16 * ((op * 2 ^ 10 + rd.number * 2 ^ 6) % 2 ^ 16) := by
    rw [show (2 : Nat) ^ 32 = 2 ^ 16 * 2 ^ 16 by norm_num, Nat.mul_mod_mul_left]
  rw [hm, ← Nat.two_pow_add_eq_or_of_lt h]
  omega

theorem RowMatch.nop : RowMatch.Statement .nop := by
  unfold RowMatch.Statement
  decide

theorem RowMatch.setlo (rd : Reg) (imm : BitVec 16) : RowMatch.Statement (.setlo rd imm) := by
  unfold RowMatch.Statement
  simp only [encode, encodeI_eq_or, Instr.tableMask, Instr.tableMatch,
    BitVec.and_or_distrib_right, imm_and_mask]
  cases rd <;> decide

theorem RowMatch.sethi (rd : Reg) (imm : BitVec 16) : RowMatch.Statement (.sethi rd imm) := by
  unfold RowMatch.Statement
  simp only [encode, encodeI_eq_or, Instr.tableMask, Instr.tableMatch,
    BitVec.and_or_distrib_right, imm_and_mask]
  cases rd <;> decide

theorem RowMatch.sad (w h : Dim) (tag : Tag) : RowMatch.Statement (.sad w h tag) := by
  unfold RowMatch.Statement
  cases w <;> cases h <;> cases tag <;> decide

theorem RowMatch.sadx4 (w h : Dim) (tag : Tag) : RowMatch.Statement (.sadx4 w h tag) := by
  unfold RowMatch.Statement
  cases w <;> cases h <;> cases tag <;> decide

theorem RowMatch.sadavg (w h : Dim) (tag : Tag) : RowMatch.Statement (.sadavg w h tag) := by
  unfold RowMatch.Statement
  cases w <;> cases h <;> cases tag <;> decide

theorem RowMatch.ipredDc (n : Dim) (tag : Tag) : RowMatch.Statement (.ipredDc n tag) := by
  unfold RowMatch.Statement
  cases n <;> cases tag <;> decide

theorem RowMatch.ipredDcLeft (n : Dim) (tag : Tag) : RowMatch.Statement (.ipredDcLeft n tag) := by
  unfold RowMatch.Statement
  cases n <;> cases tag <;> decide

theorem RowMatch.ipredDcTop (n : Dim) (tag : Tag) : RowMatch.Statement (.ipredDcTop n tag) := by
  unfold RowMatch.Statement
  cases n <;> cases tag <;> decide

theorem RowMatch.ipredDc128 (n : Dim) (tag : Tag) : RowMatch.Statement (.ipredDc128 n tag) := by
  unfold RowMatch.Statement
  cases n <;> cases tag <;> decide

theorem RowMatch.ipredV (n : Dim) (tag : Tag) : RowMatch.Statement (.ipredV n tag) := by
  unfold RowMatch.Statement
  cases n <;> cases tag <;> decide

theorem RowMatch.ipredH (n : Dim) (tag : Tag) : RowMatch.Statement (.ipredH n tag) := by
  unfold RowMatch.Statement
  cases n <;> cases tag <;> decide

theorem RowMatch.ipredTm (n : Dim) (tag : Tag) : RowMatch.Statement (.ipredTm n tag) := by
  unfold RowMatch.Statement
  cases n <;> cases tag <;> decide

theorem RowMatch.ipredD45 (n : Dim) (tag : Tag) : RowMatch.Statement (.ipredD45 n tag) := by
  unfold RowMatch.Statement
  cases n <;> cases tag <;> decide

theorem RowMatch.ipredD117 (n : Dim) (tag : Tag) : RowMatch.Statement (.ipredD117 n tag) := by
  unfold RowMatch.Statement
  cases n <;> cases tag <;> decide

theorem RowMatch.ipredD135 (n : Dim) (tag : Tag) : RowMatch.Statement (.ipredD135 n tag) := by
  unfold RowMatch.Statement
  cases n <;> cases tag <;> decide

end Sys2Proof.Laws
end

