-- ==== Sys2Proof/Tests/Slice0.lean ====
section
/-! SUPPORT. Tests with the words and the vectors of 30_encoding.md R120 and 95_test_vectors.md, and for every statement
with hypotheses a witness that meets them. Every expected value is the spec's own, none is the model's. -/

namespace Sys2Proof.Tests

open Sys2Proof.Machine

/-! ### Well-formedness: one ill-formed term for each check -/

theorem test_wf_sad_refuses_16x4 : (Instr.sad .d16 .d4 .b8).wellFormed = false := by decide
theorem test_wf_sadx4_refuses_4x16 : (Instr.sadx4 .d4 .d16 .h8).wellFormed = false := by decide
theorem test_wf_sadavg_refuses_32x4 : (Instr.sadavg .d32 .d4 .h12).wellFormed = false := by decide
theorem test_wf_ipred_refuses_side_64 :
    (([Instr.ipredDc .d64 .b8, .ipredDcLeft .d64 .b8, .ipredDcTop .d64 .b8, .ipredDc128 .d64 .b8, .ipredV .d64 .b8,
      .ipredH .d64 .b8, .ipredTm .d64 .b8, .ipredD45 .d64 .b8, .ipredD117 .d64 .b8, .ipredD135 .d64 .b8] : List Instr).all
      (fun i => !i.wellFormed)) = true := by decide
theorem test_wf_admits_the_largest : (Instr.sad .d64 .d64 .h12).wellFormed = true ∧
    (Instr.ipredD135 .d32 .h12).wellFormed = true := by decide

/-! ### Decoding: the fields of every constructor written out (30_encoding.md R101 to R103, R110, R107) -/

theorem test_decode_nop : decode 0b000001_00000000000000000000000000 = .ok .nop := by decide
theorem test_decode_setlo : decode 0b000010_1110_000000_1111111111111111 = .ok (.setlo .sum 0xFFFF) := by decide
theorem test_decode_sethi : decode 0b000011_0111_000000_0000000000000001 = .ok (.sethi .maxsad 1) := by decide
theorem test_decode_sad : decode 0b010000_0000_100_011_11_00000000000000 = .ok (.sad .d64 .d32 .h12) := by decide
theorem test_decode_sadx4 : decode 0b010001_0000_001_000_00_00000000000000 = .ok (.sadx4 .d8 .d4 .b8) := by decide
theorem test_decode_sadavg : decode 0b010010_0000_011_100_10_00000000000000 = .ok (.sadavg .d32 .d64 .h10) := by decide
theorem test_decode_ipredDc : decode 0b100000_0000_000_000_00_00000000000000 = .ok (.ipredDc .d4 .b8) := by decide
theorem test_decode_ipredDcLeft : decode 0b100000_0001_001_001_10_00000000000000 = .ok (.ipredDcLeft .d8 .h10) := by
  decide
theorem test_decode_ipredDcTop : decode 0b100000_0010_001_001_10_00000000000000 = .ok (.ipredDcTop .d8 .h10) := by decide
theorem test_decode_ipredDc128 : decode 0b100000_0011_001_001_10_00000000000000 = .ok (.ipredDc128 .d8 .h10) := by decide
theorem test_decode_ipredV : decode 0b100000_0100_000_000_10_00000000000000 = .ok (.ipredV .d4 .h10) := by decide
theorem test_decode_ipredH : decode 0b100000_0101_000_000_10_00000000000000 = .ok (.ipredH .d4 .h10) := by decide
theorem test_decode_ipredTm : decode 0b100000_0110_010_010_01_00000000000000 = .ok (.ipredTm .d16 .h8) := by decide
theorem test_decode_ipredD45 : decode 0b100000_0111_001_001_10_00000000000000 = .ok (.ipredD45 .d8 .h10) := by decide
theorem test_decode_ipredD117 : decode 0b100000_1000_010_010_00_00000000000000 = .ok (.ipredD117 .d16 .b8) := by decide
theorem test_decode_ipredD135 : decode 0b100000_1001_011_011_11_00000000000000 = .ok (.ipredD135 .d32 .h12) := by decide

/-- Each reason a word is illegal, with a word of R120 or of 95_test_vectors.md section 2.10. -/
theorem test_decode_illegal :
    decode 0x00000000 = .error .reservedOpcode ∧ decode 0x84000000 = .error .reservedOpcode ∧
    decode 0x04000001 = .error .reservedBits ∧ decode 0x08010000 = .error .reservedBits ∧
    decode 0x40000001 = .error .reservedBits ∧ decode 0x82400001 = .error .reservedBits ∧
    decode 0x40280000 = .error .reservedSize ∧ decode 0x40400000 = .error .reservedMode ∧
    decode 0x82800000 = .error .reservedMode ∧ decode 0x0BC00000 = .error .reservedRegister ∧
    decode 0x48180000 = .error .shapeNotAdmitted ∧ decode 0x80080000 = .error .shapeNotAdmitted ∧
    decode 0x80240000 = .error .shapeNotAdmitted := by decide

theorem test_decodeTableWord : decodeTableWord 32 0x40009000 = none ∧
    decodeTableWord 32 0x0DC0FFFF = some (.sethi .maxsad 0xFFFF) := by decide

/-! ### Assembler syntax (R117 to R119; 95_test_vectors.md sections 2.2 and 3) -/

theorem test_assemble_li : assembleLine "li maxsad, 0xFFFFFFFF" = some [0x09C0FFFF, 0x0DC0FFFF] ∧
    assembleLine "  LI x7 , 5466 # a bound" = some [0x09C0155A] := by decide +kernel
theorem test_assemble_kernel : assembleLine "sadavg 32x64, h10" = some [0x481C8000] ∧
    assembleLine "ipred.d135 32x32, h12" = some [0x825BC000] ∧ assembleLine "sad 16x4, b8" = none ∧
    assembleLine "ipred.dc 8x4, b8" = none ∧ assembleLine "setlo x15, 0" = none := by decide +kernel

/-! ### One step, on the 64 KiB platform of the vectors -/

/-- The bytes of a memory, in runs from an address. -/
def memOf (runs : List (Nat × List Nat)) : Memory :=
  runs.foldl (fun m p => (p.2.foldl (fun (q : Memory × Nat) b => (q.1.write q.2 (BitVec.ofNat 8 b), q.2 + 1)) (m, p.1)).1) []

/-- The reset state on the platform of 95_test_vectors.md section 0 with memory and registers given. -/
def stateOf (runs : List (Nat × List Nat)) (regs : Regs) : State :=
  { State.reset with platform := Config.vectorPlatform, mem := memOf runs, regs := regs }

/-- The state after the command word, if the step answers one. -/
def after (s : State) (w : Nat) : Option State :=
  match step (s.withFetchWord 32 w) with
  | .next t => some t
  | .fault _ => none
  | .refused _ => none

/-- The bytes from an address. -/
def bytesAt (a n : Nat) (s : State) : List Nat := (List.range n).map (fun k => (s.mem.read (a + k)).toNat)

/-- What a vector of section 2.9 states: CAUSE, FINFO, STATUS, CCNT. -/
def faultRecord (s : State) : List Nat := [s.cause.word, s.finfo, s.status.word, s.ccnt].map BitVec.toNat

/-- The common neighbours of sections 2.6 and 2.7, at side 4 and tag b8. -/
def intra : State :=
  stateOf [(0x100F, [7, 10, 20, 40, 80, 90, 60, 30, 5]), (0x1200, [15, 25, 55, 100])]
    { Regs.zero with dst := 0x2000, dsts := 4, above := 0x1010, left := 0x1200 }

/-- The source, the reference and the second predictor of vectors E2 and A1, at 4x4, with the blocks at stride 4. -/
def blocks (bound : Word) : State :=
  stateOf [(0x1000, [3, 10, 17, 24, 16, 23, 30, 37, 29, 36, 43, 50, 42, 49, 56, 63]),
      (0x3000, [100, 105, 110, 115, 111, 116, 121, 126, 122, 127, 132, 137, 133, 138, 143, 148]),
      (0x5000, [50, 53, 56, 59, 67, 70, 73, 76, 84, 87, 90, 93, 101, 104, 107, 110])]
    { Regs.zero with src := 0x1000, srcs := 4, ref0 := 0x3000, refs := 4, pred2 := 0x5000, maxsad := bound }

/-- The blocks of vector X1, with the output inside reference block 0 as vector X3 has it. -/
def fourRefs : State :=
  stateOf [(0x2000, List.replicate 16 1 ++ List.replicate 16 2 ++ List.replicate 16 3 ++ List.replicate 16 4)]
    { Regs.zero with src := 0x1000, srcs := 4, ref0 := 0x2000, ref1 := 0x2010, ref2 := 0x2020, ref3 := 0x2030,
                     refs := 4, out := 0x2000 }

/-- The start of section 2.9: CCNT 7, GT 1, the registers given. -/
def faulty (regs : Regs) : State :=
  { stateOf [] regs with ccnt := 7, status := { busy := false, fault := false, gt := true } }

/-- Vector K1. -/
theorem test_nop : (after { stateOf [] Regs.zero with ccnt := 5 } 0x04000000).map (fun t => t.ccnt.toNat) = some 6 := by
  decide +kernel
/-- Vectors K2 and K7. -/
theorem test_setlo : (after (stateOf [] { Regs.zero with srcs := 0xDEADBEEF }) 0x08400040).map
    (fun t => t.regs.srcs.toNat) = some 0x40 := by decide +kernel
theorem test_setlo_sum_keeps_gt : (after (faulty { Regs.zero with sum := 1456 }) 0x0B80FFFF).map
    (fun t => (t.regs.sum.toNat, t.status.gt)) = some (0xFFFF, true) := by decide +kernel
/-- Vector K3. -/
theorem test_sethi : (after (stateOf [] { Regs.zero with src := 0x1234 }) 0x0C000001).map (fun t => t.regs.src.toNat)
    = some 0x11234 := by decide +kernel
/-- Vector S3: the bound 1455 is exceeded, the bound 1456 is not. -/
theorem test_sad_bound : ((after (blocks 1455) 0x40000000).map (fun t => (t.regs.sum.toNat, t.status.gt)) =
      some (1456, true)) ∧
    ((after (blocks 1456) 0x40000000).map (fun t => (t.regs.sum.toNat, t.status.gt)) = some (1456, false)) := by
  decide +kernel
/-- Vector S3 under `row_partial`: at 375 the first row exceeds the bound, at 376 the second is added. -/
theorem test_sad_row_partial :
    ([375, 376].map (fun m => (after { blocks m with platform := { Config.vectorPlatform with sadExit := .rowPartial } }
      0x40000000).map (fun t => (t.regs.sum.toNat, t.status.gt)))) = [some (376, true), some (744, true)] := by
  decide +kernel
/-- Vector X3: the sums come from the block they overwrite. -/
theorem test_sadx4_overlap : (after fourRefs 0x44000000).map (bytesAt 0x2000 16) =
    some [0x10, 0, 0, 0, 0x20, 0, 0, 0, 0x30, 0, 0, 0, 0x40, 0, 0, 0] := by decide +kernel
/-- Vector F28: no sum is written when the last output byte is not mapped. -/
theorem test_sadx4_out_unmapped : (after (faulty { Regs.zero with
      src := 0x1000, srcs := 4, ref0 := 0x2000, ref1 := 0x2000, ref2 := 0x2000, ref3 := 0x2000, refs := 4, out := 0xFFF8 })
    0x44000000).map (fun t => (faultRecord t, bytesAt 0xFFF8 8 t)) =
      some ([3, 0x10000, 6, 7], [0, 0, 0, 0, 0, 0, 0, 0]) := by decide +kernel
/-- Vector A1. -/
theorem test_sadavg : (after (blocks 0) 0x48000000).map (fun t => (t.regs.sum.toNat, t.status.gt)) = some (1104, false) := by
  decide +kernel
/-- Vector F31: the second predictor is packed. -/
theorem test_sadavg_pred2_unmapped : (after (faulty { Regs.zero with
    src := 0x1000, srcs := 4, ref0 := 0x2000, refs := 4, pred2 := 0xFFF8 }) 0x48000000).map faultRecord =
      some [3, 0x10000, 6, 7] := by decide +kernel
/-- Vectors I1 to I4. -/
theorem test_ipred_dc : (after intra 0x80000000).map (bytesAt 0x2000 17) = some (List.replicate 16 43 ++ [0]) := by
  decide +kernel
theorem test_ipred_dcLeft : (after intra 0x80400000).map (bytesAt 0x2000 16) = some (List.replicate 16 49) := by
  decide +kernel
theorem test_ipred_dcTop : (after intra 0x80800000).map (bytesAt 0x2000 16) = some (List.replicate 16 38) := by
  decide +kernel
theorem test_ipred_dc128 : (after intra 0x80C00000).map (bytesAt 0x2000 16) = some (List.replicate 16 128) := by
  decide +kernel
/-- Vectors F15 and F16: the stride comes before the alignment, the alignment before the access. -/
theorem test_ipred_dc_priority :
    ([3, 4].map (fun n => (after (faulty { Regs.zero with
      dst := 0x00020001, dsts := n, above := 0x1010, left := 0x1200 }) 0x80008000).map faultRecord)) =
      [some [4, 3, 6, 7], some [2, 0x20001, 6, 7]] := by decide +kernel
/-- Vector F24: a mode that reads neither array checks neither pointer. -/
theorem test_ipred_dc128_unused_pointers : (after (faulty { Regs.zero with
    dst := 0x2000, dsts := 4, above := 0xFFFFFFFF, left := 0x12345 }) 0x80C08000).map
      (fun t => (faultRecord t, bytesAt 0x2000 4 t)) = some ([0, 0, 4, 8], [0, 2, 0, 2]) := by decide +kernel
/-- Example E8. -/
theorem test_ipred_v : (after intra 0x81000000).map (bytesAt 0x2000 16) =
    some [10, 20, 40, 80, 10, 20, 40, 80, 10, 20, 40, 80, 10, 20, 40, 80] := by decide +kernel
theorem test_ipred_h : (after intra 0x81400000).map (bytesAt 0x2000 16) =
    some [15, 15, 15, 15, 25, 25, 25, 25, 55, 55, 55, 55, 100, 100, 100, 100] := by decide +kernel
/-- Program P5, step 4: the column is read before the block that overlaps it is written. -/
theorem test_ipred_h_overlap : (after (stateOf [(0x2000, [1, 2, 3, 4])] { Regs.zero with
    dst := 0x2000, dsts := 4, left := 0x2000 }) 0x81400000).map (bytesAt 0x2000 16) =
      some [1, 1, 1, 1, 2, 2, 2, 2, 3, 3, 3, 3, 4, 4, 4, 4] := by decide +kernel
/-- Vector I7: nothing between the rows is written. -/
theorem test_ipred_v_stride : (after (stateOf [(0x1010, [10, 20, 40, 80]), (0x2000, List.replicate 12 0xEE)] { Regs.zero with
    dst := 0x2000, dsts := 6, above := 0x1010 }) 0x81000000).map (bytesAt 0x2000 12) =
      some [10, 20, 40, 80, 0xEE, 0xEE, 10, 20, 40, 80, 0xEE, 0xEE] := by decide +kernel
/-- Vector T2: saturation on both sides. -/
theorem test_ipred_tm : (after (stateOf [(0x100F, [2, 200, 250, 255, 0]), (0x1200, [100, 3, 0, 255])] { Regs.zero with
    dst := 0x2000, dsts := 4, above := 0x1010, left := 0x1200 }) 0x81800000).map (bytesAt 0x2000 16) =
      some [255, 255, 255, 98, 201, 251, 255, 1, 198, 248, 253, 0, 255, 255, 255, 253] := by decide +kernel
/-- Vector F23: the corner below address 0, of a wide sample. -/
theorem test_ipred_tm_corner : (after (faulty { Regs.zero with dst := 0x2000, dsts := 4, above := 0, left := 0x1200 })
    0x81808000).map faultRecord = some [3, 0xFFFFFFFE, 6, 7] := by decide +kernel
/-- Vectors D1 to D3. -/
theorem test_ipred_d45 : (after intra 0x81C00000).map (bytesAt 0x2000 16) =
    some [23, 45, 73, 80, 45, 73, 80, 60, 73, 80, 60, 31, 80, 60, 31, 5] := by decide +kernel
theorem test_ipred_d117 : (after intra 0x82000000).map (bytesAt 0x2000 16) =
    some [9, 15, 30, 60, 10, 12, 23, 45, 16, 9, 15, 30, 30, 10, 12, 23] := by decide +kernel
theorem test_ipred_d135 : (after intra 0x82400000).map (bytesAt 0x2000 16) =
    some [10, 12, 23, 45, 16, 10, 12, 23, 30, 16, 10, 12, 59, 30, 16, 10] := by decide +kernel
/-- Vector F26: D45 reads twice the side. -/
theorem test_ipred_d45_extent : (after (faulty { Regs.zero with dst := 0x2000, dsts := 4, above := 0xFFFA })
    0x81C00000).map faultRecord = some [3, 0x10000, 6, 7] := by decide +kernel
/-- Vectors F2 and F20. -/
theorem test_illegal : (after (faulty Regs.zero) 0xFFFFFFFF).map faultRecord = some [1, 0xFFFFFFFF, 6, 7] := by
  decide +kernel
theorem test_sad_row_beyond_the_space : (after (faulty { Regs.zero with
    src := 0x1000, srcs := 4, ref0 := 0x2000, refs := 0xFFFFFFFF }) 0x40000000).map faultRecord =
      some [3, 0x1FFF, 6, 7] := by decide +kernel
/-- The end of program P4: the fault state passes over two offers, then reset, then a command is accepted. -/
theorem test_reset_leaves_the_fault_state :
    (match step { faulty Regs.zero with
        status := { busy := false, fault := true, gt := true }, cause := .misaligned, finfo := 0x2001,
        host := [.command 0x08802000, .command 0x40008000, .reset, .command 0x04000000] } with
      | .next t => (match step t with | .next u => some (faultRecord t, faultRecord u) | _ => none)
      | _ => none) = some ([0, 0, 0, 0], [0, 0, 0, 1]) := by decide +kernel

/-! ### Witnesses: for every statement with hypotheses, a state and operands that meet them together -/

/-- The core taken by a fault, with more actions of the host to come. -/
def halted (host : List HostAction) : State :=
  { faulty { Regs.zero with src := 0x1003, sum := 0xAAAA } with
    status := { busy := false, fault := true, gt := true }, cause := .misaligned, finfo := 0x1003, host := host }

/-- A core whose host offers a word. -/
def offering (w : Word) : State := { intra with host := [.command w, .reset] }

/-- The neighbours and the destination of an intra command at the very edges of the mapped memory: the block ends with
the last mapped byte, the corner is the byte at address 0, the arrays lie right above it. -/
def intraEdge : State :=
  stateOf [(0, [9, 1, 2, 3, 4, 5, 6, 7, 8])] { Regs.zero with dst := 0xFFF0, dsts := 4, above := 1, left := 0xFFFC }

/-- A source block that ends with the last mapped byte, four references and the output next to the other end. -/
def sadEdge (p : SadExit) (bound : Word) : State :=
  { stateOf [(0xFFF0, List.replicate 16 200)]
      { Regs.zero with src := 0xFFF0, srcs := 4, ref0 := 0, ref1 := 1, ref2 := 2, ref3 := 0xFFF0, refs := 4,
                       maxsad := bound, pred2 := 0, out := 0xFFF0 } with
    platform := { Config.vectorPlatform with sadExit := p } }

theorem witness_DecodeInvertsEncode : (Instr.sad .d64 .d64 .h12).wellFormed = true ∧
    (Instr.ipredTm .d32 .h12).wellFormed = true ∧ (Instr.setlo .sum 0xFFFF).wellFormed = true := by decide

theorem witness_EncodeInvertsDecode_LegalWords : decode 0x4024C000 = .ok (.sad .d64 .d64 .h12) ∧
    decode 0x09C0FFFF = .ok (.setlo .maxsad 0xFFFF) := by decide

theorem witness_ReservedWordsRaiseIllegalCmd :
    (offering 0x84000000).Offered 0x84000000 [.reset] ∧
    bits 0x84000000 31 26 ∉ [0x01, 0x02, 0x03, 0x10, 0x11, 0x12, 0x20] ∧
    (bits 0x04000001 31 26 = 0x01 ∧ bits 0x04000001 25 0 ≠ 0) ∧
    (bits 0x0BC00000 31 26 ∈ [0x02, 0x03] ∧ bits 0x0BC00000 25 22 = 15) ∧
    (bits 0x0C200000 31 26 ∈ [0x02, 0x03] ∧ bits 0x0C200000 21 16 ≠ 0) ∧
    (bits 0x40000001 31 26 ∈ [0x10, 0x11, 0x12, 0x20] ∧ bits 0x40000001 13 0 ≠ 0) ∧
    (bits 0x40280000 31 26 ∈ [0x10, 0x11, 0x12, 0x20] ∧ 5 ≤ bits 0x40280000 21 19) ∧
    (bits 0x80050000 31 26 ∈ [0x10, 0x11, 0x12, 0x20] ∧ 5 ≤ bits 0x80050000 18 16) ∧
    (bits 0x40400000 31 26 ∈ [0x10, 0x11, 0x12] ∧ bits 0x40400000 25 22 ≠ 0) ∧
    (bits 0x44100000 31 26 ∈ [0x10, 0x11, 0x12] ∧
      (4 * 2 ^ bits 0x44100000 21 19, 4 * 2 ^ bits 0x44100000 18 16) ∉ Config.sadShapes) ∧
    (bits 0x82800000 31 26 = 0x20 ∧ 10 ≤ bits 0x82800000 25 22) ∧
    (bits 0x80080000 31 26 = 0x20 ∧ bits 0x80080000 21 19 ≠ bits 0x80080000 18 16) ∧
    (bits 0x80240000 31 26 = 0x20 ∧ bits 0x80240000 21 19 = 4) := by decide +kernel

theorem witness_StepRunsDecodedCommand : (offering 0x82400000).Offered 0x82400000 [.reset] ∧
    decode 0x82400000 = .ok (.ipredD135 .d4 .b8) := by decide +kernel

theorem witness_PlacedWordRunsNext : intra.ready = true ∧ decodeTableWord 32 0x80C00000 = some (.ipredDc128 .d4 .b8) := by
  decide +kernel

theorem witness_HostResetClearsTheCore :
    { intra with status := { busy := true, fault := false, gt := true }, host := [.reset] }.host = .reset :: [] ∧
    (halted [.command 0, .reset]).status.fault = true ∧
    step (halted [.command 0, .reset]) = .next { (halted []).resetCore with host := [] } ∧
    ((halted []).resetCore).status.fault = false ∧
    step (halted [.resetDuring 0x04000000]) = .next (halted []).resetCore :=
  ⟨rfl, rfl, rfl, rfl, rfl⟩

theorem witness_ResetAbandonsExecutingCommand :
    ({ intra with host := [.resetDuring 0x81000000] }).ready = true ∧ intra.mem.wf ∧
    decode 0x81000000 = .ok (.ipredV .d4 .b8) ∧ (0x200F : Int) ∈ writeFootprint intra (.ipredV .d4 .b8) ∧
    (0x2010 : Int) ∉ writeFootprint intra (.ipredV .d4 .b8) := by decide +kernel

theorem witness_ReadPortGivesSelectedRegister :
    (∀ sel ∈ ([13, 15, 20] : List (BitVec 5)), sel.toNat ≠ 14 ∧ (sel.toNat < 16 ∨ 19 < sel.toNat)) ∧
    (halted [.readPort 19]).status.busy = false ∧ (halted [.readPort 19]).host = .readPort 19 :: [] := by decide +kernel

theorem witness_FaultStateIsLeftByResetOnly :
    (halted [.command 0x04000000, .readPort 17]).status.fault = true ∧
    step (halted [.command 0x04000000, .readPort 17]) = .next { halted [] with rdSel := 17 } ∧
    step (halted [.reset]) = .next (halted []).resetCore ∧
    (halted [.readPort 17]).status.busy = false ∧ (halted [.readPort 17]).host = .readPort 17 :: [] :=
  ⟨rfl, rfl, rfl, rfl, rfl⟩

theorem witness_UnacceptedOffersHaveNoStep :
    (halted [.command 0x04000000]).ready = false ∧
    (halted [.command 0x04000000]).host = [0x04000000].map HostAction.command ∧
    HostAction.reset.isCommand = false ∧
    (halted [.command 0x04000000, .reset]).host = [0x04000000].map HostAction.command ++ .reset :: [] ∧
    (halted [.reset]).host = [].map HostAction.command ++ .reset :: [] := by decide +kernel

theorem witness_HostMemoryAccess :
    intra.mem.wf ∧ ({ intra with host := [.writeMemory 0xFFFF 7] }).host = .writeMemory 0xFFFF 7 :: [] ∧
    intra.platform.mapped (0 : Word).toNat = true ∧ intra.platform.mapped (0xFFFF : Word).toNat = true ∧
    intra.platform.mapped (0x10000 : Word).toNat = false ∧
    ({ intra with host := [.readMemory 0x10000] }).host = .readMemory 0x10000 :: [] := by decide +kernel

theorem witness_IdleCoreKeepsEverything : intra.host = [] := by decide

theorem witness_StepKeepsInvariant : (offering 0x84000000).Inv ∧ (offering 0x82400000).Inv ∧ (halted []).Inv ∧
    (∃ t, step (offering 0x84000000) = .next t) := by
  refine ⟨by decide +kernel, by decide +kernel, by decide +kernel, ⟨_, rfl⟩⟩

theorem witness_StepNeverTouchesUnmappedMemory : intraEdge.mem.wf ∧ intraEdge.platform.mapped 0xFFFF = true ∧
    intraEdge.platform.mapped 0x10000 = false ∧
    ((after intraEdge 0x81C00000).map (fun t => t.ccnt.toNat)) = some 1 := by decide +kernel

theorem witness_KernelCommandsKeepOperandRegisters : (Instr.sadx4 .d4 .d4 .b8).isKernel = true ∧
    (Instr.sadx4 .d4 .d4 .b8).writesSum = false ∧ ∃ t, exec (.sadx4 .d4 .d4 .b8) fourRefs = .next t :=
  ⟨rfl, rfl, ⟨_, rfl⟩⟩

theorem witness_OnlySadWritesGt : (∀ w h tag, Instr.sadavg .d4 .d4 .b8 ≠ .sad w h tag) ∧
    (∃ t, exec (.sadavg .d4 .d4 .b8) (blocks 0) = .next t) ∧ (sadEdge .exact 3199).SrcRefOk 0 .d4 .d4 .b8 ∧
    (sadEdge .exact 3199).exactSum 0 4 4 1 = 3200 ∧ (sadEdge .exact 3200).SrcRefOk 0 .d4 .d4 .b8 :=
  ⟨by intro w h tag; simp, ⟨_, rfl⟩, by decide +kernel, by decide +kernel, by decide +kernel⟩

theorem witness_UnusedRegistersHaveNoEffect : (Instr.ipredV .d4 .h10).isKernel = true ∧
    Reg.left ∉ (Instr.ipredV .d4 .h10).readsRegs ∧ (Instr.sad .d4 .d4 .b8).writesSum = true ∧
    Reg.ref1 ∉ (Instr.sad .d4 .d4 .b8).readsRegs ∧
    (after (blocks 1456) 0x40000000).map (fun t => t.ccnt) = some ((blocks 1456).ccnt + 1) := by decide +kernel

theorem witness_CommandsStayInTheirFootprints : (blocks 0).mem.wf ∧ ((blocks 0).mem.write 0x1010 77).wf ∧
    (∀ a ∈ readFootprint (blocks 0) (.sad .d4 .d4 .b8),
      ((blocks 0).mem.write 0x1010 77).read a.toNat = (blocks 0).mem.read a.toNat) ∧
    (0x1FFF : Int) ∉ writeFootprint intra (.ipredDc .d4 .b8) ∧ (0x2000 : Int) ∈ writeFootprint intra (.ipredDc .d4 .b8) ∧
    (0x200F : Int) ∈ writeFootprint intra (.ipredDc .d4 .b8) ∧ (0x2010 : Int) ∉ writeFootprint intra (.ipredDc .d4 .b8) := by
  decide +kernel

/-- Vector F14, at the largest stride that faults. -/
theorem witness_SmallDestinationStrideFaults : (Instr.ipredDc .d4 .b8).destSide? = some .d4 ∧
    ((stateOf [] { Regs.zero with dsts := 3 }).reg .dsts).toNat < Dim.d4.size := by decide +kernel

/-- Vector F10: REF2 is the first pointer out of order. -/
theorem witness_FirstMisalignedPointerFaults :
    let s := stateOf [] { Regs.zero with src := 0x1000, srcs := 4, ref0 := 0x2000, ref1 := 0x2000, ref2 := 0x2003,
                                         ref3 := 0x2001, refs := 4, out := 0x5002 }
    StrideOk s (.sadx4 .d4 .d4 .h8) ∧
    (Instr.sadx4 .d4 .d4 .h8).pointerTests = [(.src, 2), (.ref0, 2), (.ref1, 2)] ++ (.ref2, 2) :: [(.ref3, 2), (.out, 4)] ∧
    (∀ p ∈ [(Reg.src, 2), (.ref0, 2), (.ref1, 2)], (s.reg p.1).toNat % p.2 = 0) ∧ (s.reg .ref2).toNat % 2 ≠ 0 := by
  decide +kernel

/-- Vector F23, below the space. -/
theorem witness_FirstInaccessibleByteFaults_below :
    let s := stateOf [] { Regs.zero with dst := 0x2000, dsts := 4, left := 0x1200 }
    let i := Instr.ipredTm .d4 .h10
    StrideOk s i ∧ PointersOk s i ∧
    testedAddresses s i = (testedAddresses s i).take 32 ++ (-2) :: (testedAddresses s i).drop 33 ∧
    (∀ b ∈ (testedAddresses s i).take 32, s.platform.accessible b = true) := by decide +kernel

/-- Vector F20, above the space. -/
theorem witness_FirstInaccessibleByteFaults_above :
    let s := stateOf [] { Regs.zero with src := 0x1000, srcs := 4, ref0 := 0x2000, refs := 0xFFFFFFFF }
    let i := Instr.sad .d4 .d4 .b8
    StrideOk s i ∧ PointersOk s i ∧
    testedAddresses s i = (testedAddresses s i).take 20 ++ 0x100001FFF :: (testedAddresses s i).drop 21 ∧
    (∀ b ∈ (testedAddresses s i).take 20, s.platform.accessible b = true) := by decide +kernel

/-- Vector F18, the first byte that is not mapped. -/
theorem witness_FirstInaccessibleByteFaults_unmapped :
    let s := stateOf [] { Regs.zero with src := 0xFFF1, srcs := 4, ref0 := 0x2000, refs := 4 }
    let i := Instr.sad .d4 .d4 .b8
    StrideOk s i ∧ PointersOk s i ∧
    testedAddresses s i = (testedAddresses s i).take 15 ++ 0x10000 :: (testedAddresses s i).drop 16 ∧
    (∀ b ∈ (testedAddresses s i).take 15, s.platform.accessible b = true) ∧
    s.platform.mapped (0x10000 : Int).toNat = false := by decide +kernel

/-- Vectors F1, F15, F16 and F18, and a command with nothing out of order. -/
theorem witness_FaultsAreReportedInPriorityOrder :
    let s (n : Word) := stateOf [] { Regs.zero with dst := 0x20001, dsts := n, above := 0x1010, left := 0x1200 }
    let u := stateOf [] { Regs.zero with src := 0xFFF1, srcs := 4, ref0 := 0x2000, refs := 4 }
    ((offering 0).Offered 0 [.reset] ∧ ∀ i, decode 0 ≠ .ok i) ∧
    ¬ StrideOk (s 3) (.ipredDc .d4 .h10) ∧
    (StrideOk (s 4) (.ipredDc .d4 .h10) ∧ ¬ PointersOk (s 4) (.ipredDc .d4 .h10)) ∧
    (StrideOk u (.sad .d4 .d4 .b8) ∧ PointersOk u (.sad .d4 .d4 .b8) ∧ ¬ AddressesOk u (.sad .d4 .d4 .b8)) ∧
    (StrideOk intraEdge (.ipredTm .d4 .b8) ∧ PointersOk intraEdge (.ipredTm .d4 .b8) ∧
      AddressesOk intraEdge (.ipredTm .d4 .b8)) := by
  refine ⟨⟨by decide +kernel, fun i h => ?_⟩, by decide +kernel, by decide +kernel, by decide +kernel, by decide +kernel⟩
  have h0 : decode 0 = .error .reservedOpcode := by decide
  rw [h0] at h
  cases h

theorem witness_ControlWords :
    (bits 0x04000000 31 26 = 0x01 ∧ bits 0x04000000 25 0 = 0) ∧ (bits 0x04000001 31 26 = 0x01 ∧ bits 0x04000001 25 0 ≠ 0) ∧
    (bits 0x0BC00000 31 26 = 0x02 ∧ bits 0x0BC00000 25 22 = 15) ∧ (bits 0x08010000 31 26 = 0x02 ∧ bits 0x08010000 21 16 ≠ 0) ∧
    (bits 0x0FC00000 31 26 = 0x03 ∧ bits 0x0FC00000 25 22 = 15) ∧ (bits 0x0C200000 31 26 = 0x03 ∧ bits 0x0C200000 21 16 ≠ 0) ∧
    (bits 0x0B80FFFF 31 26 = 0x02 ∧ bits 0x0B80FFFF 21 16 = 0 ∧ bits 0x0B80FFFF 25 22 = Reg.sum.number) ∧
    (bits 0x0C000001 31 26 = 0x03 ∧ bits 0x0C000001 21 16 = 0 ∧ bits 0x0C000001 25 22 = Reg.src.number) ∧
    (offering 0x04000001).Offered 0x04000001 [.reset] ∧ Reg.srcs ≠ Reg.src := by decide +kernel

theorem witness_LoadImmediateExpansion : (0xFFFF : Word).toNat / 65536 = 0 ∧ (0x10000 : Word).toNat / 65536 ≠ 0 := by decide

theorem witness_MemoryAccessesAreLittleEndian : Memory.wf [] ∧ (memOf [(0xFFFFFFFE, [1, 2])]).wf ∧
    0xFFFFFFFC + 4 ≤ 2 ^ 32 ∧ 0xFFFFFFFF < 256 ^ 4 := by decide +kernel

/-- Every policy and both sides of the bound, with the source block at the end of the mapped memory. -/
theorem witness_SadReturnsByPolicy :
    (∀ p ∈ [SadExit.exact, .rowPartial, .anyAdmitted], ∀ m ∈ [0, 3199, 3200, 0xFFFFFFFF],
      (sadEdge p (BitVec.ofNat 32 m)).SrcRefOk 0 .d4 .d4 .b8 ∧ ((sadEdge p (BitVec.ofNat 32 m)).reg .maxsad).toNat = m ∧
        (sadEdge p (BitVec.ofNat 32 m)).platform.sadExit = p) ∧
    (sadEdge .exact 0).exactSum 0 4 4 1 = 3200 := by decide +kernel

theorem witness_SumsNeverOverflow : (∀ y < 4, ∀ x < 4, intra.srcAt 2 x y ≤ 4095 ∧ intra.refAt 3 2 x y ≤ 4095) ∧
    Tag.h8 ≠ Tag.b8 ∧ Tag.h12 ≠ Tag.b8 := by decide +kernel

theorem witness_Sadx4StoresFourSums : (sadEdge .exact 0).mem.wf ∧
    (∀ k < 4, (sadEdge .exact 0).SrcRefOk k .d4 .d4 .b8) ∧ ((sadEdge .exact 0).reg .out).toNat % 4 = 0 ∧
    (∀ j < 16, (sadEdge .exact 0).platform.accessible ((((sadEdge .exact 0).reg .out).toNat + j : Nat) : Int) = true) := by
  decide +kernel

theorem witness_SadavgSumsAgainstRoundedAverage : (sadEdge .exact 0).SrcRefOk 0 .d4 .d4 .b8 ∧
    (sadEdge .exact 0).BlockOk .b8 ((sadEdge .exact 0).reg .pred2) 4 4 4 ∧
    (∀ y < 4, ∀ x < 4, (sadEdge .exact 0).pred2At 4 1 x y = (sadEdge .exact 0).refAt 0 1 x y) := by decide +kernel

/-- The hypotheses of the statements about the intra commands, D45 and D117 with their own extents, at the edges. -/
theorem witness_IpredStatements : intraEdge.mem.wf ∧ intraEdge.DestOk .d4 .b8 ∧ intraEdge.RowOk .b8 (intraEdge.reg .above) 0 4 ∧
    intraEdge.RowOk .b8 (intraEdge.reg .left) 0 4 ∧ intraEdge.RowOk .b8 (intraEdge.reg .above) (-1) 5 ∧
    intraEdge.RowOk .b8 (intraEdge.reg .above) 0 8 ∧ intraEdge.RowOk .b8 (intraEdge.reg .left) 0 3 := by decide +kernel

/-- The same with a wide tag, the pointers even, on the state of the vectors. -/
theorem witness_IpredStatements_wide : intra.mem.wf ∧ intra.DestOk .d8 .h10 = False ∧ intra.DestOk .d4 .h10 ∧
    intra.RowOk .h10 (intra.reg .above) (-1) 5 ∧ intra.RowOk .h10 (intra.reg .left) 0 4 ∧
    intra.RowOk .h10 (intra.reg .above) 0 8 := by
  refine ⟨by decide +kernel, eq_false (by decide +kernel), by decide +kernel, by decide +kernel, by decide +kernel,
    by decide +kernel⟩

/-- Vector D8, at side 32 and its last row and column. -/
theorem witness_DirectionalModesKeepAConstant : 31 < Dim.d32.size ∧
    (∀ i : Int, 0 ≤ i → i < 2 * (Dim.d32.size : Int) → (fun _ : Int => 77) i = 77) ∧ (fun _ : Int => 77) (-1) = 77 :=
  ⟨by decide, fun _ _ _ => rfl, rfl⟩

theorem witness_DcOfExtremesIsMidRange : ∀ i : Int, 0 ≤ i → i < (Dim.d4.size : Int) →
    (fun _ : Int => Tag.h12.maxv) i = Tag.h12.maxv ∧ (fun _ : Int => 0) i = 0 := fun _ _ _ => ⟨rfl, rfl⟩

theorem witness_CopiesAndTmStayInRange : (3 < Dim.d4.size) ∧
    (∀ i : Int, 0 ≤ i → i < (Dim.d4.size : Int) → (fun _ : Int => 255) i ≤ Tag.b8.maxv) :=
  ⟨by decide, fun _ _ _ => show 255 ≤ Tag.b8.maxv by decide⟩

end Sys2Proof.Tests
end

/-! ## The host's step and the form every command shares

`exec_eq_runKernel` writes every command, the control commands included, as one `runKernel` of its operand check and its
effect, so a fact about all commands is a fact about those two functions. The lemmas after it say once what an action of
the host and a step can do. The statements of 10_state.md are settled from these. -/

namespace Sys2Proof

/-- The numbers from 15 upward name no register (10_state.md R22). -/
theorem Reg.ofNumber?_eq_none {n : Nat} (hn : 15 ≤ n) : Reg.ofNumber? n = none := by
  obtain ⟨k, rfl⟩ := Nat.exists_eq_add_of_le' hn
  rfl

end Sys2Proof

namespace Sys2Proof.Machine

/-! ### Every command as one check and one effect -/

/-- The check of a command that tests no operand. -/
def KernelCheck.empty : KernelCheck := { destStride := none, pointers := [], footprint := [] }

/-- The effect of an intra command: the predicted block is stored (41_intra_dc.md R170). -/
def ipredEffect (n : Dim) (tag : Tag) (pred : Predictor) (s : State) : State :=
  s.withMem (s.mem.storeAll tag.ss (ipredStores n tag pred s))

/-- What a command checks before it reads or writes anything (20_memory.md R77); a control command checks nothing. -/
def commandCheck (i : Instr) (s : State) : KernelCheck :=
  match i with
  | .nop | .setlo _ _ | .sethi _ _ => .empty
  | .sad w h tag => sadCheck w h tag s
  | .sadx4 w h tag => sadx4Check w h tag s
  | .sadavg w h tag => sadavgCheck w h tag s
  | .ipredDc n tag => ipredCheck n tag (readsDc n.size) s
  | .ipredDcLeft n tag => ipredCheck n tag (readsDcLeft n.size) s
  | .ipredDcTop n tag => ipredCheck n tag (readsDcTop n.size) s
  | .ipredDc128 n tag => ipredCheck n tag readsDc128 s
  | .ipredV n tag => ipredCheck n tag (readsV n.size) s
  | .ipredH n tag => ipredCheck n tag (readsH n.size) s
  | .ipredTm n tag => ipredCheck n tag (readsTm n.size) s
  | .ipredD45 n tag => ipredCheck n tag (readsD45 n.size) s
  | .ipredD117 n tag => ipredCheck n tag (readsD117 n.size) s
  | .ipredD135 n tag => ipredCheck n tag (readsD135 n.size) s

/-- What a command does once its checks pass, before it retires. -/
def commandEffect (i : Instr) (s : State) : State :=
  match i with
  | .nop => s
  | .setlo rd imm => s.writeReg rd (imm.setWidth 32)
  | .sethi rd imm => s.writeReg rd (BitVec.ofNat 32 (imm.toNat * 2 ^ 16 + (s.reg rd).toNat % 2 ^ 16))
  | .sad w h tag => sadEffect w h tag s
  | .sadx4 w h tag => s.withMem (s.mem.storeAll 4 (sadx4Stores w h tag s))
  | .sadavg w h tag => s.writeReg .sum (BitVec.ofNat 32 (s.averagedSum w.size h.size tag.ss))
  | .ipredDc n tag => ipredEffect n tag (predDc n.size) s
  | .ipredDcLeft n tag => ipredEffect n tag (predDcLeft n.size) s
  | .ipredDcTop n tag => ipredEffect n tag (predDcTop n.size) s
  | .ipredDc128 n tag => ipredEffect n tag (predDc128 tag.bd) s
  | .ipredV n tag => ipredEffect n tag predV s
  | .ipredH n tag => ipredEffect n tag predH s
  | .ipredTm n tag => ipredEffect n tag (predTm tag.maxv) s
  | .ipredD45 n tag => ipredEffect n tag (predD45 n.size) s
  | .ipredD117 n tag => ipredEffect n tag predD117 s
  | .ipredD135 n tag => ipredEffect n tag predD135 s

/-- Every command is its check, then its effect; for a control command the empty check always passes. -/
theorem exec_eq_runKernel (i : Instr) (s : State) : exec i s = runKernel (commandCheck i s) (commandEffect i) s := by
  cases i <;> rfl

/-- Everything a command can do: it takes the first fault of its check, or it has its effect and retires. -/
theorem exec_cases (i : Instr) (s : State) :
    (∃ cause info, (commandCheck i s).firstFault s.platform = some (cause, info) ∧ cause ≠ .noFault ∧
      exec i s = .next (s.raise cause info)) ∨
    ((commandCheck i s).firstFault s.platform = none ∧ exec i s = .next (commandEffect i s).retire) := by
  rw [exec_eq_runKernel]
  exact runKernel_cases _ _ s

/-! ### The flag GT (10_state.md R31) -/

/-- No command but SAD writes GT. -/
theorem commandEffect_gt (i : Instr) (s : State) (hsad : ∀ w h tag, i ≠ .sad w h tag) :
    (commandEffect i s).status.gt = s.status.gt := by
  cases i with
  | sad w h tag => exact absurd rfl (hsad w h tag)
  | _ => rfl

/-- SAD sets GT by the exact sum, whatever value its policy returns in SUM (40_sad.md R145). -/
@[simp] theorem sadEffect_gt (w h : Dim) (tag : Tag) (s : State) :
    (sadEffect w h tag s).status.gt = gtFlag (s.exactSum 0 w.size h.size tag.ss) (s.reg .maxsad) := rfl

theorem gtFlag_eq_true_iff (exactSum : Nat) (bound : Word) : gtFlag exactSum bound = true ↔ bound.toNat < exactSum := by
  simp [gtFlag]

/-- No check looks at GT. -/
theorem commandCheck_setGt (i : Instr) (s : State) (b : Bool) : commandCheck i (s.setGt b) = commandCheck i s := by
  cases i <;> rfl

/-- No effect looks at GT: from states that differ in GT alone, the results differ at most in GT. -/
theorem commandEffect_setGt (i : Instr) (s : State) (b c : Bool) :
    (commandEffect i (s.setGt b)).setGt c = (commandEffect i s).setGt c := by
  cases i <;> rfl

theorem State.retire_setGt (s : State) (b : Bool) : s.retire.setGt b = (s.setGt b).retire := rfl

/-- From states that differ in GT alone, a command gives states that differ at most in GT. -/
theorem exec_setGt (i : Instr) (s : State) (b c : Bool) :
    ∃ t t', exec i s = .next t ∧ exec i (s.setGt b) = .next t' ∧ t'.setGt c = t.setGt c := by
  have hcheck : (commandCheck i (s.setGt b)).firstFault (s.setGt b).platform =
      (commandCheck i s).firstFault s.platform := by
    rw [commandCheck_setGt, State.setGt_platform]
  rcases exec_cases i s with ⟨cause, info, hfault, -, hexec⟩ | ⟨hpass, hexec⟩
  · refine ⟨_, (s.setGt b).raise cause info, hexec, ?_, rfl⟩
    rw [exec_eq_runKernel]
    exact runKernel_of_fault _ _ _ _ _ (hcheck.trans hfault)
  · refine ⟨_, (commandEffect i (s.setGt b)).retire, hexec, ?_, ?_⟩
    · rw [exec_eq_runKernel]
      exact runKernel_of_pass _ _ _ (hcheck.trans hpass)
    · rw [State.retire_setGt, State.retire_setGt, commandEffect_setGt]

/-- Settles O21: GT is kept by every command whose effect keeps it, SAD sets it by the exact sum, and no check and no
effect looks at it. -/
theorem onlySadWritesGtAndNoneReadsIt : Obligations.OnlySadWritesGtAndNoneReadsIt := by
  refine ⟨fun i s t hexec hsad => ?_, fun w h tag s hops => ?_, fun i s b => exec_setGt i s b false⟩
  · rcases exec_cases i s with ⟨cause, info, -, -, hfault⟩ | ⟨-, hretire⟩
    · obtain rfl := Host.Outcome.next.inj (hfault.symm.trans hexec)
      rfl
    · obtain rfl := Host.Outcome.next.inj (hretire.symm.trans hexec)
      exact commandEffect_gt i s hsad
  · refine ⟨_, runKernel_of_pass _ _ _ (sadCheck_pass w h tag s hops), ?_⟩
    rw [State.retire_status, sadEffect_gt, gtFlag_eq_true_iff]

/-! ### The host's next action -/

/-- An action that is no command takes place next, whether the core is ready or not. -/
theorem State.nextActions_of_not_command {s : State} {a : HostAction} {rest : List HostAction}
    (hhost : s.host = a :: rest) (ha : a.isCommand = false) : s.nextActions = a :: rest := by
  simp [State.nextActions, hhost, ha]

/-- At a core that is not ready the next action is no command (10_state.md R42). -/
theorem State.not_command_of_nextActions {s : State} {a : HostAction} {rest : List HostAction}
    (hready : s.ready = false) (hnext : s.nextActions = a :: rest) : a.isCommand = false := by
  have hdrop : s.host.dropWhile HostAction.isCommand = a :: rest := by
    simpa [State.nextActions, hready] using hnext
  have hhead := List.head?_dropWhile_not HostAction.isCommand s.host
  simpa [hdrop] using hhead

/-- A core in the fault state is not ready (10_state.md R37). -/
theorem State.not_ready_of_fault {s : State} (hfault : s.status.fault = true) : s.ready = false := by
  simp [State.ready, hfault]

/-! ### One step -/

theorem step_of_nextActions {s : State} {a : HostAction} {rest : List HostAction} (hnext : s.nextActions = a :: rest) :
    step s = hostStep a { s with host := rest } := by
  simp [step, hnext]

/-- The step of a host whose next action is no command, whether the core is ready or not. -/
theorem step_of_not_command {s : State} {a : HostAction} {rest : List HostAction} (hhost : s.host = a :: rest)
    (ha : a.isCommand = false) : step s = hostStep a { s with host := rest } :=
  step_of_nextActions (State.nextActions_of_not_command hhost ha)

/-- Everything a step can do: the host's next action takes place, or the host has nothing to do and nothing changes. -/
theorem step_cases {s t : State} (hstep : step s = .next t) :
    (∃ a rest, s.nextActions = a :: rest ∧ hostStep a { s with host := rest } = .next t) ∨ (s.host = [] ∧ t = s) := by
  cases hnext : s.nextActions with
  | cons a rest => exact .inl ⟨a, rest, rfl, (step_of_nextActions hnext).symm.trans hstep⟩
  | nil =>
    cases hhost : s.host with
    | nil =>
      simp only [step, hnext, hhost, List.isEmpty_nil, if_true, Host.Outcome.next.injEq] at hstep
      exact .inr ⟨rfl, hstep.symm⟩
    | cons a rest => simp [step, hnext, hhost] at hstep

/-! ### One action of the host -/

/-- The two states agree in every piece of core state (10_state.md R45). -/
structure SameCore (s t : State) : Prop where
  regs : t.regs = s.regs
  status : t.status = s.status
  cause : t.cause = s.cause
  finfo : t.finfo = s.finfo
  ccnt : t.ccnt = s.ccnt

/-- Everything an action of the host can do to the core: it runs a command, it resets the core, or it leaves every piece
of core state as it is. -/
theorem hostStep_cases {a : HostAction} {s t : State} (hstep : hostStep a s = .next t) :
    (∃ w, a = .command w ∧ runCommand w s = .next t) ∨ (a = .reset ∧ t = s.resetCore) ∨
      (∃ w, a = .resetDuring w ∧ t = s.abandon w) ∨ SameCore s t := by
  cases a with
  | command w => exact .inl ⟨w, rfl, hstep⟩
  | reset => exact .inr (.inl ⟨rfl, (Host.Outcome.next.inj hstep).symm⟩)
  | resetDuring w => exact .inr (.inr (.inl ⟨w, rfl, (Host.Outcome.next.inj hstep).symm⟩))
  | readPort sel =>
    obtain rfl := Host.Outcome.next.inj hstep
    exact .inr (.inr (.inr ⟨rfl, rfl, rfl, rfl, rfl⟩))
  | readMemory x =>
    simp only [hostStep] at hstep
    split at hstep
    · obtain rfl := Host.Outcome.next.inj hstep
      exact .inr (.inr (.inr ⟨rfl, rfl, rfl, rfl, rfl⟩))
    · cases hstep
  | writeMemory x b =>
    simp only [hostStep] at hstep
    split at hstep
    · obtain rfl := Host.Outcome.next.inj hstep
      exact .inr (.inr (.inr ⟨rfl, rfl, rfl, rfl, rfl⟩))
    · cases hstep

/-- A step of a faulted core is one of the two resets, or it keeps every piece of core state
(60_exceptions.md R249). -/
theorem step_of_fault {s t : State} (hfault : s.status.fault = true) (hstep : step s = .next t) :
    (∃ rest, s.nextActions = .reset :: rest ∧ t = ({ s with host := rest } : State).resetCore) ∨
      (∃ w rest, s.nextActions = .resetDuring w :: rest ∧ t = ({ s with host := rest } : State).abandon w) ∨
      SameCore s t := by
  rcases step_cases hstep with ⟨a, rest, hnext, haction⟩ | ⟨-, rfl⟩
  · rcases hostStep_cases haction with ⟨w, rfl, -⟩ | ⟨rfl, ht⟩ | ⟨w, rfl, ht⟩ | hsame
    · have hnot := State.not_command_of_nextActions (State.not_ready_of_fault hfault) hnext
      cases hnot
    · exact .inl ⟨rest, hnext, ht⟩
    · exact .inr (.inl ⟨w, rest, hnext, ht⟩)
    · exact .inr (.inr ⟨hsame.regs, hsame.status, hsame.cause, hsame.finfo, hsame.ccnt⟩)
  · exact .inr (.inr ⟨rfl, rfl, rfl, rfl, rfl⟩)

/-- Settles O8: HostReset is `resetCore` in every state, and the only other step that leaves the fault state is the
reset during a command. -/
theorem hostResetClearsTheCore : Obligations.HostResetClearsTheCore := by
  refine ⟨fun s rest hhost => ?_, fun s t hfault hstep hleft => ?_, rfl, Regs.get_zero, rfl, rfl, rfl, rfl⟩
  · exact ⟨_, step_of_not_command hhost rfl, State.resetCore_ready _, State.reg_resetCore _, rfl⟩
  · rcases step_of_fault hfault hstep with ⟨rest, hnext, -⟩ | ⟨w, rest, hnext, -⟩ | hsame
    · exact ⟨rest, .inl hnext⟩
    · exact ⟨rest, .inr ⟨w, hnext⟩⟩
    · rw [hsame.status, hfault] at hleft
      cases hleft

/-! ### The read port (10_state.md R41) -/

/-- The selects whose value is unspecified while BUSY is 1. -/
theorem selectVolatile_eq_false_iff (sel : BitVec 5) :
    selectVolatile sel = false ↔ sel.toNat ≠ 14 ∧ (sel.toNat < 16 ∨ 19 < sel.toNat) := by
  simp only [selectVolatile, Bool.or_eq_false_iff, Bool.and_eq_false_iff, decide_eq_false_iff_not]
  omega

/-- The read port gives the selected register wherever the spec fixes its value. -/
theorem State.readPort_eq_selected {s : State} {sel : BitVec 5}
    (hfixed : s.status.busy = true → selectVolatile sel = false) : s.readPort sel = s.selected sel := by
  cases hbusy : s.status.busy with
  | false => simp [State.readPort, hbusy]
  | true => simp [State.readPort, hfixed hbusy]

/-- A select above the table gives 0. -/
theorem State.selected_of_reserved (s : State) {sel : BitVec 5} (hsel : 20 ≤ sel.toNat) : s.selected sel = 0 := by
  rw [State.selected, Reg.ofNumber?_eq_none (by omega)]
  obtain ⟨k, hk⟩ := Nat.exists_eq_add_of_le' hsel
  rw [hk]
  rfl

/-- The registers in the order of their selects: 15 is reserved and reads as 0. -/
def State.readTable (s : State) : List Word :=
  [s.regs.src, s.regs.srcs, s.regs.ref0, s.regs.ref1, s.regs.ref2, s.regs.ref3, s.regs.refs, s.regs.maxsad,
   s.regs.pred2, s.regs.out, s.regs.dst, s.regs.dsts, s.regs.above, s.regs.left, s.regs.sum, 0,
   s.status.word, s.cause.word, s.finfo, s.ccnt]

theorem State.selected_eq_readTable (s : State) (sel : BitVec 5) : s.selected sel = s.readTable.getD sel.toNat 0 := by
  by_cases hsel : sel.toNat < 20
  · unfold State.selected
    interval_cases sel.toNat <;> rfl
  · have hlen : s.readTable.length ≤ sel.toNat := not_lt.1 hsel
    rw [s.selected_of_reserved (not_lt.1 hsel), List.getD_eq_default _ _ hlen]

/-- Settles O10: outside the volatile selects the read port is the table, and selecting changes `rd_sel` alone. -/
theorem readPortGivesSelectedRegister : Obligations.ReadPortGivesSelectedRegister := by
  refine ⟨fun s sel hfixed => ?_, fun s sel rest hhost => ⟨_, step_of_not_command hhost rfl, rfl, rfl⟩⟩
  calc s.readPort sel = s.selected sel :=
        State.readPort_eq_selected (fun hbusy => (selectVolatile_eq_false_iff sel).2 (hfixed hbusy))
    _ = s.readTable.getD sel.toNat 0 := s.selected_eq_readTable sel

end Sys2Proof.Machine

/-! ## The footprints of a command (20_memory.md R75)

What a command reads is said from the sample up: a sample, a block or a neighbour array is the same in two memories that
agree on its bytes, so every sum and every predictor over them is the same. What a command writes is a list of stores:
the write footprint is exactly the bytes those stores cover, a covered byte holds what was stored whatever memory held
before, and every other byte stays. -/

namespace Sys2Proof.Machine

/-! ### Two memories that agree on some bytes -/

/-- The two memories hold the same byte at each of the addresses. -/
abbrev Memory.AgreeOn (bytes : List Int) (m m' : Memory) : Prop := ∀ a ∈ bytes, m.read a.toNat = m'.read a.toNat

theorem Memory.agreeOn_append {as bs : List Int} {m m' : Memory} :
    Memory.AgreeOn (as ++ bs) m m' ↔ Memory.AgreeOn as m m' ∧ Memory.AgreeOn bs m m' := List.forall_mem_append

theorem State.smp_withMem {s : State} {m : Memory} {p : Word} {i : Int} {ss : Nat}
    (hagree : Memory.AgreeOn (smpBytes p i ss) m s.mem) : (s.withMem m).smp p i ss = s.smp p i ss :=
  Memory.readLE_congr _ _ _ _ (fun k hk => hagree _ (mem_smpBytes.2 ⟨k, hk, rfl⟩))

theorem State.pix_withMem {s : State} {m : Memory} {p : Word} {stride w h ss x y : Nat}
    (hagree : Memory.AgreeOn (blk p stride w h ss) m s.mem) (hx : x < w) (hy : y < h) :
    (s.withMem m).pix p stride x y ss = s.pix p stride x y ss :=
  State.smp_withMem (fun a ha => hagree a
    (List.mem_flatMap.2 ⟨y, List.mem_range.2 hy, List.mem_flatMap.2 ⟨x, List.mem_range.2 hx, ha⟩⟩))

theorem State.smp_withMem_of_row {s : State} {m : Memory} {p : Word} {idx : List Int} {ss : Nat} {i : Int}
    (hagree : Memory.AgreeOn (row p idx ss) m s.mem) (hi : i ∈ idx) : (s.withMem m).smp p i ss = s.smp p i ss :=
  State.smp_withMem (fun a ha => hagree a (List.mem_flatMap.2 ⟨i, hi, ha⟩))

/-! ### The sums of the SAD family (20_memory.md R72) -/

section Sums

variable {s : State} {m : Memory} {w h : Dim} {tag : Tag} {k : Nat}

theorem State.rowSum_withMem (hsrc : Memory.AgreeOn (s.srcBlk w h tag) m s.mem)
    (href : Memory.AgreeOn (s.refBlk k w h tag) m s.mem) {y : Nat} (hy : y < h.size) :
    (s.withMem m).rowSum k w.size tag.ss y = s.rowSum k w.size tag.ss y := by
  refine sumTo_congr _ _ _ (fun x hx => ?_)
  have hsrcAt : (s.withMem m).srcAt tag.ss x y = s.srcAt tag.ss x y := State.pix_withMem hsrc hx hy
  have hrefAt : (s.withMem m).refAt k tag.ss x y = s.refAt k tag.ss x y := State.pix_withMem href hx hy
  rw [hsrcAt, hrefAt]

theorem State.exactSum_withMem (hsrc : Memory.AgreeOn (s.srcBlk w h tag) m s.mem)
    (href : Memory.AgreeOn (s.refBlk k w h tag) m s.mem) :
    (s.withMem m).exactSum k w.size h.size tag.ss = s.exactSum k w.size h.size tag.ss :=
  sumTo_congr _ _ _ (fun _ hy => State.rowSum_withMem hsrc href hy)

theorem State.rowPartial_withMem (hsrc : Memory.AgreeOn (s.srcBlk w h tag) m s.mem)
    (href : Memory.AgreeOn (s.refBlk 0 w h tag) m s.mem) (bound : Nat) :
    (s.withMem m).rowPartial w.size h.size tag.ss bound = s.rowPartial w.size h.size tag.ss bound :=
  congrArg (rowPartialFrom bound 0)
    (List.map_congr_left (fun _ hy => State.rowSum_withMem hsrc href (List.mem_range.1 hy)))

theorem State.averagedSum_withMem (hsrc : Memory.AgreeOn (s.srcBlk w h tag) m s.mem)
    (href : Memory.AgreeOn (s.refBlk 0 w h tag) m s.mem) (hpred2 : Memory.AgreeOn (s.pred2Blk w h tag) m s.mem) :
    (s.withMem m).averagedSum w.size h.size tag.ss = s.averagedSum w.size h.size tag.ss := by
  refine sumTo_congr _ _ _ (fun y hy => sumTo_congr _ _ _ (fun x hx => ?_))
  have hsrcAt : (s.withMem m).srcAt tag.ss x y = s.srcAt tag.ss x y := State.pix_withMem hsrc hx hy
  have hrefAt : (s.withMem m).refAt 0 tag.ss x y = s.refAt 0 tag.ss x y := State.pix_withMem href hx hy
  have hpred2At : (s.withMem m).pred2At w.size tag.ss x y = s.pred2At w.size tag.ss x y :=
    State.pix_withMem hpred2 hx hy
  rw [hsrcAt, hrefAt, hpred2At]

/-- SAD leaves memory as it is, and what else it writes is the same from a memory that agrees on both blocks. -/
theorem sadEffect_withMem (hsrc : Memory.AgreeOn (s.srcBlk w h tag) m s.mem)
    (href : Memory.AgreeOn (s.refBlk 0 w h tag) m s.mem) :
    sadEffect w h tag (s.withMem m) = (sadEffect w h tag s).withMem m := by
  simp only [sadEffect, State.exactSum_withMem hsrc href, State.rowPartial_withMem hsrc href, State.reg_withMem]
  rfl

theorem sadx4Stores_withMem (hsrc : Memory.AgreeOn (s.srcBlk w h tag) m s.mem)
    (href : ∀ k < 4, Memory.AgreeOn (s.refBlk k w h tag) m s.mem) :
    sadx4Stores w h tag (s.withMem m) = sadx4Stores w h tag s :=
  List.map_congr_left (fun k hk =>
    congrArg (Prod.mk _) (State.exactSum_withMem hsrc (href k (List.mem_range.1 hk))))

end Sums

/-! ### What a predictor reads (20_memory.md R73) -/

theorem mem_idxFrom_iff_bounds {lo i : Int} {n : Nat} : i ∈ idxFrom lo n ↔ lo ≤ i ∧ i < lo + (n : Int) := by
  rw [mem_idxFrom]
  constructor
  · rintro ⟨j, hj, rfl⟩
    omega
  · rintro ⟨hlo, hhi⟩
    exact ⟨(i - lo).toNat, by omega, by omega⟩

/-- On a block of side `n` the predictor looks at no neighbour but the listed ones. -/
def Predictor.ReadsOnly (pred : Predictor) (n : Nat) (nb : Neighbours) : Prop :=
  ∀ a a' l l' : Int → Nat, (∀ i ∈ nb.above, a i = a' i) → (∀ j ∈ nb.left, l j = l' j) →
    ∀ r < n, ∀ c < n, pred a l r c = pred a' l' r c

theorem sumSamples_congr {n : Nat} {a a' : Int → Nat} (hagree : ∀ i ∈ idxFrom 0 n, a i = a' i) :
    sumSamples n a = sumSamples n a' :=
  sumTo_congr _ _ _ (fun k hk => hagree k (mem_idxFrom_iff_bounds.2 (by omega)))

theorem predDc_readsOnly (n : Nat) : (predDc n).ReadsOnly n (readsDc n) := by
  intro a a' l l' ha hl r hr c hc
  rw [predDc, predDc, sumSamples_congr ha, sumSamples_congr hl]

theorem predDcLeft_readsOnly (n : Nat) : (predDcLeft n).ReadsOnly n (readsDcLeft n) := by
  intro a a' l l' ha hl r hr c hc
  rw [predDcLeft, predDcLeft, sumSamples_congr hl]

theorem predDcTop_readsOnly (n : Nat) : (predDcTop n).ReadsOnly n (readsDcTop n) := by
  intro a a' l l' ha hl r hr c hc
  rw [predDcTop, predDcTop, sumSamples_congr ha]

theorem predDc128_readsOnly (n bd : Nat) : (predDc128 bd).ReadsOnly n readsDc128 :=
  fun _ _ _ _ _ _ _ _ _ _ => rfl

theorem predV_readsOnly (n : Nat) : predV.ReadsOnly n (readsV n) :=
  fun _ _ _ _ ha _ _ _ c hc => ha c (mem_idxFrom_iff_bounds.2 (by omega))

theorem predH_readsOnly (n : Nat) : predH.ReadsOnly n (readsH n) :=
  fun _ _ _ _ _ hl r hr _ _ => hl r (mem_idxFrom_iff_bounds.2 (by omega))

theorem predTm_readsOnly (n maxv : Nat) : (predTm maxv).ReadsOnly n (readsTm n) := by
  intro a a' l l' ha hl r hr c hc
  have hcorner : a (-1) = a' (-1) := ha _ (mem_idxFrom_iff_bounds.2 (by omega))
  have habove : a (c : Int) = a' (c : Int) := ha _ (mem_idxFrom_iff_bounds.2 (by omega))
  have hleft : l (r : Int) = l' (r : Int) := hl _ (mem_idxFrom_iff_bounds.2 (by omega))
  rw [predTm, predTm, hcorner, habove, hleft]

theorem predD45_readsOnly (n : Nat) : (predD45 n).ReadsOnly n (readsD45 n) := by
  intro a a' l l' ha hl r hr c hc
  have hextent : Config.d45AboveExtent n = 2 * n := rfl
  have habove : ∀ j < Config.d45AboveExtent n, a (j : Int) = a' (j : Int) :=
    fun j hj => ha j (mem_idxFrom_iff_bounds.2 (by omega))
  by_cases hinside : r + c + 2 < Config.d45AboveExtent n
  · rw [predD45, predD45, if_pos hinside, if_pos hinside, habove _ (by omega), habove _ (by omega), habove _ hinside]
  · rw [predD45, predD45, if_neg hinside, if_neg hinside, habove _ (by omega)]

/-- The edge array from the corner, `n` samples of `above` and `k` samples of `left` (42_intra_directional.md R191). -/
theorem edge_congr {n k : Nat} {a a' l l' : Int → Nat} (ha : ∀ i ∈ idxFrom (-1) (n + 1), a i = a' i)
    (hl : ∀ j ∈ idxFrom 0 k, l j = l' j) {i : Int} (hlo : -1 - (k : Int) ≤ i) (hhi : i < (n : Int)) :
    edge a l i = edge a' l' i := by
  by_cases hi : -1 ≤ i
  · rw [edge, edge, if_pos hi, if_pos hi, ha i (mem_idxFrom_iff_bounds.2 (by omega))]
  · rw [edge, edge, if_neg hi, if_neg hi, hl _ (mem_idxFrom_iff_bounds.2 (by omega))]

theorem predD117_readsOnly (n : Nat) : predD117.ReadsOnly n (readsD117 n) := by
  intro a a' l l' ha hl r hr c hc
  have hedge : ∀ i : Int, -(n : Int) ≤ i → i < (n : Int) → edge a l i = edge a' l' i :=
    fun i hlo hhi => edge_congr (k := n - 1) ha hl (by omega) hhi
  by_cases hupper : r / 2 ≤ c
  · by_cases heven : r % 2 = 0
    · simp only [predD117, if_pos hupper, if_pos heven]
      rw [hedge _ (by omega) (by omega), hedge _ (by omega) (by omega)]
    · simp only [predD117, if_pos hupper, if_neg heven]
      rw [hedge _ (by omega) (by omega), hedge _ (by omega) (by omega), hedge _ (by omega) (by omega)]
  · simp only [predD117, if_neg hupper]
    rw [hedge _ (by omega) (by omega), hedge _ (by omega) (by omega), hedge _ (by omega) (by omega)]

theorem predD135_readsOnly (n : Nat) : predD135.ReadsOnly n (readsD135 n) := by
  intro a a' l l' ha hl r hr c hc
  simp only [predD135]
  rw [edge_congr ha hl (by omega) (by omega), edge_congr ha hl (by omega) (by omega),
    edge_congr ha hl (by omega) (by omega)]

/-! ### The bytes a list of stores covers -/

/-- One of the stores, each of `n` bytes, covers the byte address. -/
def StoredAt (n : Nat) (stores : List (Int × Nat)) (a : Int) : Prop :=
  ∃ st ∈ stores, st.1 ≤ a ∧ a < st.1 + (n : Int)

/-- Stores that cover only accessible bytes lie in the address space. -/
theorem storesInRange_of_accessible {p : Platform} {n : Nat} {stores : List (Int × Nat)} (hn : 0 < n)
    (hacc : ∀ a, StoredAt n stores a → p.accessible a = true) : StoresInRange n stores := by
  intro st hst
  have hfirst := (Platform.accessible_iff _ _).1 (hacc st.1 ⟨st, hst, by omega, by omega⟩)
  have hlast := (Platform.accessible_iff _ _).1 (hacc (st.1 + (n : Int) - 1) ⟨st, hst, by omega, by omega⟩)
  exact ⟨hfirst.1, by have := hlast.2.1; omega⟩

/-- After the same stores two memories agree on every byte a store covers, and wherever they agreed before. -/
theorem Memory.read_storeAll_congr {m m' : Memory} {n : Nat} {stores : List (Int × Nat)}
    (hrange : StoresInRange n stores) (hm : m.wf) (hm' : m'.wf) (y : Nat)
    (hy : StoredAt n stores y ∨ m.read y = m'.read y) :
    (m.storeAll n stores).read y = (m'.storeAll n stores).read y := by
  induction stores generalizing m m' with
  | nil =>
    rcases hy with ⟨st, hst, -⟩ | hsame
    · cases hst
    · exact hsame
  | cons st rest ih =>
    obtain ⟨hlo, hhi⟩ := hrange st (by simp)
    refine ih (fun u hu => hrange u (by simp [hu])) (Memory.writeLE_wf m _ _ _ hlo hhi hm)
      (Memory.writeLE_wf m' _ _ _ hlo hhi hm') ?_
    rw [Memory.read_writeLE m _ _ _ hlo hhi hm, Memory.read_writeLE m' _ _ _ hlo hhi hm']
    by_cases hcov : st.1 ≤ (y : Int) ∧ (y : Int) < st.1 + (n : Int)
    · exact .inr (by rw [if_pos hcov, if_pos hcov])
    · rw [if_neg hcov, if_neg hcov]
      refine hy.imp_left ?_
      rintro ⟨u, hu, hcovu⟩
      rcases List.mem_cons.1 hu with rfl | hu
      · exact absurd hcovu hcov
      · exact ⟨u, hu, hcovu⟩

/-- The four words of SADX4 cover exactly `out_sums` (20_memory.md R74). -/
theorem mem_outBytes_iff_storedAt (w h : Dim) (tag : Tag) (s : State) (a : Int) :
    a ∈ s.outBytes ↔ StoredAt 4 (sadx4Stores w h tag s) a := by
  rw [State.outBytes, mem_idxFrom_iff_bounds]
  simp only [StoredAt, sadx4Stores, List.mem_map, List.mem_range]
  constructor
  · rintro ⟨hlo, hhi⟩
    exact ⟨_, ⟨((a - ((s.reg .out).toNat : Int)) / 4).toNat, by omega, rfl⟩, by dsimp only; omega, by dsimp only; omega⟩
  · rintro ⟨_, ⟨k, hk, rfl⟩, hlo, hhi⟩
    dsimp only at hlo hhi
    omega

/-- The stores of an intra command cover exactly its destination block (20_memory.md R74). -/
theorem mem_dstBlk_iff_storedAt (n : Dim) (tag : Tag) (pred : Predictor) (s : State) (a : Int) :
    a ∈ s.dstBlk n tag ↔ StoredAt tag.ss (ipredStores n tag pred s) a := by
  rw [State.dstBlk, mem_blk]
  constructor
  · rintro ⟨r, hr, c, hc, k, hk, rfl⟩
    refine ⟨_, mem_ipredStores.2 ⟨r, hr, c, hc, rfl⟩, ?_⟩
    rw [s.dstAddr_eq]
    omega
  · rintro ⟨_, hst, hcov⟩
    obtain ⟨r, hr, c, hc, rfl⟩ := mem_ipredStores.1 hst
    rw [s.dstAddr_eq] at hcov
    exact ⟨r, hr, c, hc, (a - (((s.reg .dst).toNat + (r * (s.reg .dsts).toNat + c) * tag.ss : Nat) : Int)).toNat,
      by omega, by omega⟩

/-! ### The effect of a command and its footprints -/

/-- No check looks at memory (20_memory.md R77). -/
theorem commandCheck_withMem (i : Instr) (s : State) (m : Memory) : commandCheck i (s.withMem m) = commandCheck i s := by
  cases i <;> rfl

/-- From memory `m` in place of the state's own, the effect of the command writes the same registers, flags and bytes;
and it writes no byte outside the write footprint. -/
structure EffectInFootprints (i : Instr) (s : State) (m : Memory) : Prop where
  sameCore : (commandEffect i (s.withMem m)).withMem [] = (commandEffect i s).withMem []
  sameWritten : Memory.AgreeOn (writeFootprint s i) (commandEffect i (s.withMem m)).mem (commandEffect i s).mem
  frame : ∀ x : Nat, (x : Int) ∉ writeFootprint s i → (commandEffect i s).mem.read x = s.mem.read x

/-- The case of a command that stores nothing. -/
theorem EffectInFootprints.of_keeps_mem {i : Instr} {s : State} {m : Memory} (hwrites : writeFootprint s i = [])
    (hkeeps : (commandEffect i s).mem = s.mem)
    (hsame : commandEffect i (s.withMem m) = (commandEffect i s).withMem m) : EffectInFootprints i s m where
  sameCore := by rw [hsame]; rfl
  sameWritten := by rw [hwrites]; exact List.forall_mem_nil _
  frame := fun x _ => by rw [hkeeps]

/-- The case of a command that changes memory alone, by stores that cover exactly its write footprint. -/
theorem EffectInFootprints.of_stores {i : Instr} {s : State} {m : Memory} {n : Nat} {stores : List (Int × Nat)}
    (hs : s.mem.wf) (hm : m.wf) (hn : 0 < n) (hwrites : ∀ a, a ∈ writeFootprint s i ↔ StoredAt n stores a)
    (hacc : ∀ a ∈ writeFootprint s i, s.platform.accessible a = true)
    (heffect : commandEffect i s = s.withMem (s.mem.storeAll n stores))
    (hsame : commandEffect i (s.withMem m) = s.withMem (m.storeAll n stores)) : EffectInFootprints i s m := by
  have hrange : StoresInRange n stores := storesInRange_of_accessible hn (fun a ha => hacc a ((hwrites a).2 ha))
  refine ⟨by rw [heffect, hsame]; rfl, fun a ha => ?_, fun x hx => ?_⟩
  · have hnonneg : ((a.toNat : Nat) : Int) = a := Int.toNat_of_nonneg ((Platform.accessible_iff _ _).1 (hacc a ha)).1
    rw [heffect, hsame]
    refine Memory.read_storeAll_congr hrange hm hs _ (.inl ?_)
    rw [hnonneg]
    exact (hwrites a).1 ha
  · rw [heffect]
    exact Memory.read_storeAll_outside _ _ _ hrange hs x (fun st hst hcov => hx ((hwrites x).2 ⟨st, hst, hcov⟩))

/-- The command is the intra command of side `n` with these neighbours and this predictor, which looks at no other
neighbour. Its check, its effect and its footprints are those of the frame, by definition. -/
structure IntraForm (i : Instr) (n : Dim) (tag : Tag) (nb : Neighbours) (pred : Predictor) : Prop where
  readsOnly : pred.ReadsOnly n.size nb
  check : ∀ s, commandCheck i s = ipredCheck n tag nb s := by intro; rfl
  effect : ∀ s, commandEffect i s = ipredEffect n tag pred s := by intro; rfl
  reads : ∀ s, readFootprint s i = neighbourBytes s tag nb := by intro; rfl
  writes : ∀ s, writeFootprint s i = s.dstBlk n tag := by intro; rfl

/-- Each command with a destination block is an intra command, and its mode's predictor looks at the neighbours of the
table of 20_memory.md R73 alone. -/
theorem exists_intraForm {i : Instr} (hside : i.destSide?.isSome = true) :
    ∃ n tag nb pred, IntraForm i n tag nb pred := by
  cases i with
  | ipredDc n tag => exact ⟨n, tag, _, _, { readsOnly := predDc_readsOnly _ }⟩
  | ipredDcLeft n tag => exact ⟨n, tag, _, _, { readsOnly := predDcLeft_readsOnly _ }⟩
  | ipredDcTop n tag => exact ⟨n, tag, _, _, { readsOnly := predDcTop_readsOnly _ }⟩
  | ipredDc128 n tag => exact ⟨n, tag, _, _, { readsOnly := predDc128_readsOnly _ _ }⟩
  | ipredV n tag => exact ⟨n, tag, _, _, { readsOnly := predV_readsOnly _ }⟩
  | ipredH n tag => exact ⟨n, tag, _, _, { readsOnly := predH_readsOnly _ }⟩
  | ipredTm n tag => exact ⟨n, tag, _, _, { readsOnly := predTm_readsOnly _ _ }⟩
  | ipredD45 n tag => exact ⟨n, tag, _, _, { readsOnly := predD45_readsOnly _ }⟩
  | ipredD117 n tag => exact ⟨n, tag, _, _, { readsOnly := predD117_readsOnly _ }⟩
  | ipredD135 n tag => exact ⟨n, tag, _, _, { readsOnly := predD135_readsOnly _ }⟩
  | _ => cases hside

/-- The stores of an intra command are the same from a memory that agrees on the neighbours its predictor looks at. -/
theorem ipredStores_withMem {n : Dim} {tag : Tag} {nb : Neighbours} {pred : Predictor} {s : State} {m : Memory}
    (hpred : pred.ReadsOnly n.size nb) (hread : Memory.AgreeOn (neighbourBytes s tag nb) m s.mem) :
    ipredStores n tag pred (s.withMem m) = ipredStores n tag pred s := by
  obtain ⟨habove, hleft⟩ := Memory.agreeOn_append.1 hread
  have hvalue := hpred ((s.withMem m).aboveAt tag.ss) (s.aboveAt tag.ss) ((s.withMem m).leftAt tag.ss)
    (s.leftAt tag.ss) (fun _ hi => State.smp_withMem_of_row habove hi) (fun _ hj => State.smp_withMem_of_row hleft hj)
  refine List.flatMap_congr (fun r hr => List.map_congr_left (fun c hc => ?_))
  exact congrArg (Prod.mk _) (hvalue r (List.mem_range.1 hr) c (List.mem_range.1 hc))

theorem intra_effectInFootprints {i : Instr} (hside : i.destSide?.isSome = true) {s : State} {m : Memory}
    (hs : s.mem.wf) (hm : m.wf) (hpass : (commandCheck i s).firstFault s.platform = none)
    (hread : Memory.AgreeOn (readFootprint s i) m s.mem) : EffectInFootprints i s m := by
  obtain ⟨n, tag, nb, pred, hform⟩ := exists_intraForm hside
  rw [hform.reads] at hread
  refine .of_stores (stores := ipredStores n tag pred s) hs hm tag.ss_pos (fun a => ?_) (fun a ha => ?_)
    (hform.effect s) ?_
  · rw [hform.writes]
    exact mem_dstBlk_iff_storedAt n tag pred s a
  · obtain ⟨-, -, hacc⟩ := (KernelCheck.firstFault_eq_none_iff _ _).1 hpass
    rw [hform.writes] at ha
    refine hacc a ?_
    rw [hform.check]
    exact List.mem_append_left _ (List.mem_append_left _ ha)
  · rw [hform.effect, ipredEffect, ipredStores_withMem hform.readsOnly hread]
    rfl

theorem sadx4_effectInFootprints {w h : Dim} {tag : Tag} {s : State} {m : Memory} (hs : s.mem.wf) (hm : m.wf)
    (hpass : (sadx4Check w h tag s).firstFault s.platform = none)
    (hread : Memory.AgreeOn (readFootprint s (.sadx4 w h tag)) m s.mem) :
    EffectInFootprints (.sadx4 w h tag) s m := by
  simp only [readFootprint, Memory.agreeOn_append] at hread
  obtain ⟨⟨⟨⟨hsrc, href0⟩, href1⟩, href2⟩, href3⟩ := hread
  have href : ∀ k < 4, Memory.AgreeOn (s.refBlk k w h tag) m s.mem := by
    intro k hk
    interval_cases k
    exacts [href0, href1, href2, href3]
  refine .of_stores (stores := sadx4Stores w h tag s) hs hm (by decide) (mem_outBytes_iff_storedAt w h tag s)
    (fun a ha => ?_) rfl ?_
  · obtain ⟨-, -, hacc⟩ := (KernelCheck.firstFault_eq_none_iff _ _).1 hpass
    exact hacc a (List.mem_append_right _ ha)
  · rw [commandEffect, sadx4Stores_withMem hsrc href]
    rfl

/-- Once its checks pass, every command stays in its footprints: a control command and the two commands that return SUM
leave memory as it is, SADX4 stores `out_sums`, and each intra command stores its destination block. -/
theorem commandEffect_inFootprints (i : Instr) {s : State} {m : Memory} (hs : s.mem.wf) (hm : m.wf)
    (hpass : (commandCheck i s).firstFault s.platform = none)
    (hread : Memory.AgreeOn (readFootprint s i) m s.mem) : EffectInFootprints i s m := by
  cases i with
  | nop => exact .of_keeps_mem rfl rfl rfl
  | setlo rd imm => exact .of_keeps_mem rfl rfl rfl
  | sethi rd imm => exact .of_keeps_mem rfl rfl rfl
  | sad w h tag =>
    obtain ⟨hsrc, href⟩ := Memory.agreeOn_append.1 hread
    exact .of_keeps_mem rfl rfl (sadEffect_withMem hsrc href)
  | sadx4 w h tag => exact sadx4_effectInFootprints hs hm hpass hread
  | sadavg w h tag =>
    simp only [readFootprint, Memory.agreeOn_append] at hread
    obtain ⟨⟨hsrc, href⟩, hpred2⟩ := hread
    refine .of_keeps_mem rfl rfl ?_
    rw [commandEffect, State.averagedSum_withMem hsrc href hpred2]
    rfl
  | _ => exact intra_effectInFootprints rfl hs hm hpass hread

theorem State.retire_withMem (s : State) (m : Memory) : s.retire.withMem m = (s.withMem m).retire := rfl

/-- Settles O23: the checks look at no memory, so both commands fault alike or both pass, and an effect stays in its
footprints. -/
theorem commandsStayInTheirFootprints : Obligations.CommandsStayInTheirFootprints := by
  intro i s m hs hm hread
  have hcheck : (commandCheck i (s.withMem m)).firstFault (s.withMem m).platform =
      (commandCheck i s).firstFault s.platform := by
    rw [commandCheck_withMem, State.withMem_platform]
  rcases exec_cases i s with ⟨cause, info, hfault, -, hexec⟩ | ⟨hpass, hexec⟩
  · refine ⟨_, (s.withMem m).raise cause info, hexec, ?_, rfl, fun hretired => ?_, fun _ _ => rfl⟩
    · rw [exec_eq_runKernel]
      exact runKernel_of_fault _ _ _ _ _ (hcheck.trans hfault)
    · rw [State.raise_ccnt] at hretired
      exact absurd hretired (by simp)
  · obtain ⟨hcore, hwritten, hframe⟩ := commandEffect_inFootprints i hs hm hpass hread
    refine ⟨_, (commandEffect i (s.withMem m)).retire, hexec, ?_, ?_, fun _ => hwritten, hframe⟩
    · rw [exec_eq_runKernel]
      exact runKernel_of_pass _ _ _ (hcheck.trans hpass)
    · rw [State.retire_withMem, State.retire_withMem, hcore]

end Sys2Proof.Machine

/-! ## The decoder, field by field (30_encoding.md R111 to R116, R121)

What a word decodes to is said in terms of its fields alone: one lemma for each lookup of a field, one for each format,
and `decode_eq_ok_iff` for the opcode. `LegalFields` collects when the word is legal. A row's mask keeps whole fields, so
a word under a mask is the sum of those fields in place, and matching a row says what each of them holds. The statements
on legal and on reserved words are settled from these. -/

namespace Sys2Proof

/-! ### The lookup of one field -/

theorem Reg.ofNumber?_eq_some_iff {n : Nat} {r : Reg} : Reg.ofNumber? n = some r ↔ r.number = n := by
  constructor
  · intro hsome
    unfold Reg.ofNumber? at hsome
    split at hsome <;> cases hsome <;> rfl
  · rintro rfl
    cases r <;> rfl

theorem Reg.exists_number_eq_iff {n : Nat} : (∃ r : Reg, r.number = n) ↔ n < 15 := by
  constructor
  · rintro ⟨r, rfl⟩
    cases r <;> decide
  · intro hn
    simp only [← Reg.ofNumber?_eq_some_iff]
    interval_cases n <;> exact ⟨_, rfl⟩

theorem Dim.ofCode?_eq_some_iff {c : Nat} {d : Dim} : Dim.ofCode? c = some d ↔ d.code = c := by
  constructor
  · intro hsome
    unfold Dim.ofCode? at hsome
    split at hsome <;> cases hsome <;> rfl
  · rintro rfl
    cases d <;> rfl

theorem Dim.exists_code_eq {c : Nat} (hc : c ≤ 4) : ∃ d : Dim, d.code = c := by
  simp only [← Dim.ofCode?_eq_some_iff]
  interval_cases c <;> exact ⟨_, rfl⟩

/-- A width, height or side is `4 << code` (30_encoding.md R104, R105). -/
theorem Dim.size_eq_code (d : Dim) : d.size = 4 * 2 ^ d.code := by cases d <;> rfl

/-- Every side but 64 is admitted for an intra command (00_scope.md R8). -/
theorem ipredSideOk_iff (d : Dim) : ipredSideOk d = true ↔ d.code ≤ 3 := by cases d <;> decide

theorem sadShapeOk_iff (w h : Dim) :
    sadShapeOk w h = true ↔ (4 * 2 ^ w.code, 4 * 2 ^ h.code) ∈ Config.sadShapes := by
  rw [sadShapeOk, decide_eq_true_iff, w.size_eq_code, h.size_eq_code]

theorem sadShapes_le : ∀ shape ∈ Config.sadShapes, shape.1 ≤ 4 * 2 ^ 4 ∧ shape.2 ≤ 4 * 2 ^ 4 := by decide

/-- The codes of an admitted shape are not reserved. -/
theorem codes_le_of_mem_sadShapes {cw ch : Nat} (hshape : (4 * 2 ^ cw, 4 * 2 ^ ch) ∈ Config.sadShapes) :
    cw ≤ 4 ∧ ch ≤ 4 := by
  obtain ⟨hwidth, hheight⟩ := sadShapes_le _ hshape
  exact ⟨(Nat.pow_le_pow_iff_right (by decide)).1 (Nat.le_of_mul_le_mul_left hwidth (by decide)),
    (Nat.pow_le_pow_iff_right (by decide)).1 (Nat.le_of_mul_le_mul_left hheight (by decide))⟩

theorem lt_ten_of_ipredOfMode? {mode : Nat} {mk : Dim → Tag → Instr} (hmk : ipredOfMode? mode = some mk) :
    mode < 10 := by
  by_contra hge
  obtain ⟨k, rfl⟩ := Nat.exists_eq_add_of_le' (not_lt.1 hge)
  cases hmk

theorem exists_ipredOfMode? {mode : Nat} (hmode : mode < 10) : ∃ mk, ipredOfMode? mode = some mk := by
  interval_cases mode <;> exact ⟨_, rfl⟩

/-- The rows of IPRED share one mask, and each has its mode in its match (30_encoding.md R121). -/
theorem table_of_ipredOfMode? {mode : Nat} {mk : Dim → Tag → Instr} (hmk : ipredOfMode? mode = some mk) (n : Dim)
    (tag : Tag) :
    (mk n tag).tableMask = 0xFFC03FFF ∧
      (mk n tag).tableMatch = BitVec.ofNat 32 (0x80000000 + mode * 0x00400000) := by
  have hmode := lt_ten_of_ipredOfMode? hmk
  interval_cases mode <;> cases hmk <;> exact ⟨rfl, rfl⟩

/-! ### The rest of decoding, one lemma per format -/

section Formats

variable {w : Word} {i : Instr}

/-- A check of the decoder: the word is legal only when it passes, and then the rest of decoding decides. -/
theorem check_eq_ok_iff {p : Prop} [Decidable p] {rest : Except Illegal Instr} {reason : Illegal} :
    (if p then rest else .error reason) = .ok i ↔ p ∧ rest = .ok i := by
  by_cases hp : p <;> simp [hp]

theorem decodeZ_eq_ok_iff : decodeZ w = .ok i ↔ bits w 25 0 = 0 ∧ i = .nop := by
  rw [decodeZ, check_eq_ok_iff, Except.ok.injEq, eq_comm (a := i)]

theorem decodeI_eq_ok_iff {mk : Reg → BitVec 16 → Instr} :
    decodeI mk w = .ok i ↔
      bits w 21 16 = 0 ∧ ∃ rd : Reg, rd.number = bits w 25 22 ∧ i = mk rd (BitVec.ofNat 16 (bits w 15 0)) := by
  simp only [← Reg.ofNumber?_eq_some_iff, decodeI, check_eq_ok_iff]
  cases hrd : Reg.ofNumber? (bits w 25 22) with
  | none => simp
  | some rd => simp [eq_comm (a := i)]

theorem decodeSad_eq_ok_iff {mk : Dim → Dim → Tag → Instr} :
    decodeSad mk w = .ok i ↔
      bits w 13 0 = 0 ∧ ∃ bw bh : Dim, bw.code = bits w 21 19 ∧ bh.code = bits w 18 16 ∧ bits w 25 22 = 0 ∧
        sadShapeOk bw bh = true ∧ i = mk bw bh (Tag.ofCode (bits w 15 14)) := by
  simp only [← Dim.ofCode?_eq_some_iff, decodeSad, check_eq_ok_iff]
  cases hbw : Dim.ofCode? (bits w 21 19) with
  | none => simp
  | some bw =>
    cases hbh : Dim.ofCode? (bits w 18 16) with
    | none => simp
    | some bh => simp [check_eq_ok_iff, eq_comm (a := i)]

theorem decodeIpred_eq_ok_iff :
    decodeIpred w = .ok i ↔
      bits w 13 0 = 0 ∧ ∃ (n : Dim) (mk : Dim → Tag → Instr), n.code = bits w 21 19 ∧ n.code = bits w 18 16 ∧
        ipredOfMode? (bits w 25 22) = some mk ∧ ipredSideOk n = true ∧ i = mk n (Tag.ofCode (bits w 15 14)) := by
  simp only [← Dim.ofCode?_eq_some_iff, decodeIpred, check_eq_ok_iff]
  cases hbw : Dim.ofCode? (bits w 21 19) with
  | none => simp
  | some bw =>
    cases hbh : Dim.ofCode? (bits w 18 16) with
    | none => simp
    | some bh =>
      cases hmk : ipredOfMode? (bits w 25 22) with
      | none => simp
      | some mk => simp [check_eq_ok_iff, and_assoc, eq_comm (a := i), eq_comm (a := bw)]

/-- The opcode chooses the format and the command (30_encoding.md R110). -/
theorem decode_eq_ok_iff :
    decode w = .ok i ↔
      (bits w 31 26 = 0x01 ∧ decodeZ w = .ok i) ∨ (bits w 31 26 = 0x02 ∧ decodeI .setlo w = .ok i) ∨
      (bits w 31 26 = 0x03 ∧ decodeI .sethi w = .ok i) ∨ (bits w 31 26 = 0x10 ∧ decodeSad .sad w = .ok i) ∨
      (bits w 31 26 = 0x11 ∧ decodeSad .sadx4 w = .ok i) ∨ (bits w 31 26 = 0x12 ∧ decodeSad .sadavg w = .ok i) ∨
      (bits w 31 26 = 0x20 ∧ decodeIpred w = .ok i) := by
  unfold decode
  split <;> simp_all

end Formats

/-! ### Which fields a legal word has -/

theorem bits_lt (w : Word) (hi lo : Nat) : bits w hi lo < 2 ^ (hi - lo + 1) := Nat.mod_lt _ (by positivity)

theorem exists_decodeZ_iff {w : Word} : (∃ i, decodeZ w = .ok i) ↔ bits w 25 0 = 0 := by
  simp [decodeZ_eq_ok_iff]

theorem exists_decodeI_iff {w : Word} (mk : Reg → BitVec 16 → Instr) :
    (∃ i, decodeI mk w = .ok i) ↔ bits w 21 16 = 0 ∧ bits w 25 22 ≠ 15 := by
  have hlt : bits w 25 22 < 16 := bits_lt w 25 22
  have hnumber : (∃ rd : Reg, rd.number = bits w 25 22) ↔ bits w 25 22 ≠ 15 := by
    rw [Reg.exists_number_eq_iff]
    omega
  rw [← hnumber]
  simp only [decodeI_eq_ok_iff]
  constructor
  · rintro ⟨_, hzero, rd, hrd, -⟩
    exact ⟨hzero, rd, hrd⟩
  · rintro ⟨hzero, rd, hrd⟩
    exact ⟨_, hzero, rd, hrd, rfl⟩

theorem exists_decodeSad_iff {w : Word} (mk : Dim → Dim → Tag → Instr) :
    (∃ i, decodeSad mk w = .ok i) ↔
      bits w 25 22 = 0 ∧ bits w 13 0 = 0 ∧ (4 * 2 ^ bits w 21 19, 4 * 2 ^ bits w 18 16) ∈ Config.sadShapes := by
  simp only [decodeSad_eq_ok_iff, sadShapeOk_iff]
  constructor
  · rintro ⟨_, hzero, bw, bh, hbw, hbh, hmode, hshape, -⟩
    rw [hbw, hbh] at hshape
    exact ⟨hmode, hzero, hshape⟩
  · rintro ⟨hmode, hzero, hshape⟩
    obtain ⟨hcw, hch⟩ := codes_le_of_mem_sadShapes hshape
    obtain ⟨bw, hbw⟩ := Dim.exists_code_eq hcw
    obtain ⟨bh, hbh⟩ := Dim.exists_code_eq hch
    refine ⟨_, hzero, bw, bh, hbw, hbh, hmode, ?_, rfl⟩
    rwa [hbw, hbh]

theorem exists_decodeIpred_iff {w : Word} :
    (∃ i, decodeIpred w = .ok i) ↔
      bits w 25 22 < 10 ∧ bits w 13 0 = 0 ∧ bits w 21 19 = bits w 18 16 ∧ bits w 21 19 ≤ 3 := by
  simp only [decodeIpred_eq_ok_iff, ipredSideOk_iff]
  constructor
  · rintro ⟨_, hzero, n, mk, hwidth, hheight, hmk, hside, -⟩
    exact ⟨lt_ten_of_ipredOfMode? hmk, hzero, hwidth.symm.trans hheight, hwidth ▸ hside⟩
  · rintro ⟨hmode, hzero, hsquare, hside⟩
    obtain ⟨n, hn⟩ := Dim.exists_code_eq (hside.trans (by decide))
    obtain ⟨mk, hmk⟩ := exists_ipredOfMode? hmode
    exact ⟨_, hzero, n, mk, hn, hn.trans hsquare, hmk, hn ▸ hside, rfl⟩

/-- The fields of the word are those of a command of the core: the negation of every rejection of 30_encoding.md R111,
R112 and R113, by opcode. -/
def LegalFields (w : Word) : Prop :=
  (bits w 31 26 = 0x01 ∧ bits w 25 0 = 0) ∨
  ((bits w 31 26 = 0x02 ∨ bits w 31 26 = 0x03) ∧ bits w 21 16 = 0 ∧ bits w 25 22 ≠ 15) ∨
  ((bits w 31 26 = 0x10 ∨ bits w 31 26 = 0x11 ∨ bits w 31 26 = 0x12) ∧ bits w 25 22 = 0 ∧ bits w 13 0 = 0 ∧
    (4 * 2 ^ bits w 21 19, 4 * 2 ^ bits w 18 16) ∈ Config.sadShapes) ∨
  (bits w 31 26 = 0x20 ∧ bits w 25 22 < 10 ∧ bits w 13 0 = 0 ∧ bits w 21 19 = bits w 18 16 ∧ bits w 21 19 ≤ 3)

/-- A word decodes exactly when its fields are those of a command (30_encoding.md R116). -/
theorem exists_decode_iff (w : Word) : (∃ i, decode w = .ok i) ↔ LegalFields w := by
  simp only [decode_eq_ok_iff, exists_or, exists_and_left, exists_decodeZ_iff, exists_decodeI_iff,
    exists_decodeSad_iff, exists_decodeIpred_iff, LegalFields, or_and_right, or_assoc]

/-! ### A word under the mask of a row -/

/-- A mask of consecutive ones keeps one field, in its place. -/
theorem and_fieldMask (w : Word) (hi lo : Nat) :
    w.toNat &&& 2 ^ lo * (2 ^ (hi - lo + 1) - 1) = 2 ^ lo * bits w hi lo := by
  apply Nat.eq_of_testBit_eq
  intro k
  simp only [bits, Nat.testBit_and, Nat.testBit_two_pow_mul, Nat.testBit_two_pow_sub_one, Nat.testBit_mod_two_pow,
    Nat.testBit_div_two_pow]
  by_cases hk : lo ≤ k
  · simp [hk, Bool.and_comm]
  · simp [hk]

/-- The mask of format I keeps OP and the must-be-zero bits 21:16. -/
theorem toNat_and_maskI (w : Word) :
    (w &&& 0xFC3F0000).toNat = 2 ^ 26 * bits w 31 26 + 2 ^ 16 * bits w 21 16 := by
  have hzero : bits w 21 16 < 2 ^ 6 := bits_lt w 21 16
  have hmask : (0xFC3F0000 : Word).toNat = 2 ^ 26 * (2 ^ 6 - 1) ||| 2 ^ 16 * (2 ^ 6 - 1) := by decide
  calc (w &&& 0xFC3F0000).toNat
      = w.toNat &&& 2 ^ 26 * (2 ^ 6 - 1) ||| w.toNat &&& 2 ^ 16 * (2 ^ 6 - 1) := by
        rw [BitVec.toNat_and, hmask, Nat.and_or_distrib_left]
    _ = 2 ^ 26 * bits w 31 26 ||| 2 ^ 16 * bits w 21 16 :=
        congrArg₂ (· ||| ·) (and_fieldMask w 31 26) (and_fieldMask w 21 16)
    _ = 2 ^ 26 * bits w 31 26 + 2 ^ 16 * bits w 21 16 := (Nat.two_pow_add_eq_or_of_lt (by omega) _).symm

/-- The mask of format K keeps OP, MODE and the must-be-zero bits 13:0. -/
theorem toNat_and_maskK (w : Word) :
    (w &&& 0xFFC03FFF).toNat = 2 ^ 26 * bits w 31 26 + (2 ^ 22 * bits w 25 22 + bits w 13 0) := by
  have hmode : bits w 25 22 < 2 ^ 4 := bits_lt w 25 22
  have hzero : bits w 13 0 < 2 ^ 14 := bits_lt w 13 0
  have hmask : (0xFFC03FFF : Word).toNat =
      2 ^ 26 * (2 ^ 6 - 1) ||| (2 ^ 22 * (2 ^ 4 - 1) ||| 2 ^ 0 * (2 ^ 14 - 1)) := by decide
  calc (w &&& 0xFFC03FFF).toNat
      = w.toNat &&& 2 ^ 26 * (2 ^ 6 - 1) |||
          (w.toNat &&& 2 ^ 22 * (2 ^ 4 - 1) ||| w.toNat &&& 2 ^ 0 * (2 ^ 14 - 1)) := by
        rw [BitVec.toNat_and, hmask, Nat.and_or_distrib_left, Nat.and_or_distrib_left]
    _ = 2 ^ 26 * bits w 31 26 ||| (2 ^ 22 * bits w 25 22 ||| 2 ^ 0 * bits w 13 0) :=
        congrArg₂ (· ||| ·) (and_fieldMask w 31 26)
          (congrArg₂ (· ||| ·) (and_fieldMask w 25 22) (and_fieldMask w 13 0))
    _ = 2 ^ 26 * bits w 31 26 + (2 ^ 22 * bits w 25 22 + bits w 13 0) := by
        rw [pow_zero, one_mul, ← Nat.two_pow_add_eq_or_of_lt (by omega) (bits w 25 22),
          ← Nat.two_pow_add_eq_or_of_lt (by omega)]

section RowMatch

variable {w row : Word} {op mode : Nat}

theorem and_maskZ_eq_iff : w &&& 0xFFFFFFFF = 0x04000000 ↔ bits w 31 26 = 0x01 ∧ bits w 25 0 = 0 := by
  have hall : w &&& 0xFFFFFFFF = w := BitVec.and_allOnes
  have hrow : (0x04000000 : Word).toNat = 2 ^ 26 := rfl
  rw [hall, ← BitVec.toNat_inj, hrow, bits, bits]
  omega

theorem and_maskI_eq_iff (hrow : row.toNat = 2 ^ 26 * op) :
    w &&& 0xFC3F0000 = row ↔ bits w 31 26 = op ∧ bits w 21 16 = 0 := by
  have hzero : bits w 21 16 < 2 ^ 6 := bits_lt w 21 16
  rw [← BitVec.toNat_inj, toNat_and_maskI, hrow]
  omega

theorem and_maskK_eq_iff (hmode : mode < 16) (hrow : row.toNat = 2 ^ 26 * op + 2 ^ 22 * mode) :
    w &&& 0xFFC03FFF = row ↔ bits w 31 26 = op ∧ bits w 25 22 = mode ∧ bits w 13 0 = 0 := by
  have hkept : bits w 25 22 < 2 ^ 4 := bits_lt w 25 22
  have hzero : bits w 13 0 < 2 ^ 14 := bits_lt w 13 0
  rw [← BitVec.toNat_inj, toNat_and_maskK, hrow]
  omega

theorem and_maskK_eq_ipred_iff (hmode : mode < 10) :
    w &&& 0xFFC03FFF = BitVec.ofNat 32 (0x80000000 + mode * 0x00400000) ↔
      bits w 31 26 = 0x20 ∧ bits w 25 22 = mode ∧ bits w 13 0 = 0 := by
  refine and_maskK_eq_iff (by omega) ?_
  rw [BitVec.toNat_ofNat]
  omega

end RowMatch

/-! ### The rows of the opcode table (30_encoding.md R121) -/

/-- The word matches a row of the opcode table, and the constraint of the row holds: the row of NOP, the two of format
I, the three of the SAD family, the ten of IPRED. -/
def MatchesRow (w : Word) : Prop :=
  (w &&& 0xFFFFFFFF = 0x04000000) ∨
  ((w &&& 0xFC3F0000 = 0x08000000 ∨ w &&& 0xFC3F0000 = 0x0C000000) ∧ bits w 25 22 ≠ 15) ∨
  ((w &&& 0xFFC03FFF = 0x40000000 ∨ w &&& 0xFFC03FFF = 0x44000000 ∨ w &&& 0xFFC03FFF = 0x48000000) ∧
    (4 * 2 ^ bits w 21 19, 4 * 2 ^ bits w 18 16) ∈ Config.sadShapes) ∨
  ((∃ mode < 10, w &&& 0xFFC03FFF = BitVec.ofNat 32 (0x80000000 + mode * 0x00400000)) ∧
    bits w 21 19 = bits w 18 16 ∧ bits w 21 19 ≤ 3)

theorem exists_ipred_row_iff {w : Word} :
    (∃ mode < 10, w &&& 0xFFC03FFF = BitVec.ofNat 32 (0x80000000 + mode * 0x00400000)) ↔
      bits w 31 26 = 0x20 ∧ bits w 25 22 < 10 ∧ bits w 13 0 = 0 := by
  constructor
  · rintro ⟨mode, hmode, hmatch⟩
    obtain ⟨hop, hkept, hzero⟩ := (and_maskK_eq_ipred_iff hmode).1 hmatch
    exact ⟨hop, hkept ▸ hmode, hzero⟩
  · rintro ⟨hop, hmode, hzero⟩
    exact ⟨_, hmode, (and_maskK_eq_ipred_iff hmode).2 ⟨hop, rfl, hzero⟩⟩

/-- Matching a row is having the fields of a command. -/
theorem legalFields_iff_matchesRow (w : Word) : LegalFields w ↔ MatchesRow w := by
  have hsetlo := and_maskI_eq_iff (w := w) (row := 0x08000000) (op := 0x02) rfl
  have hsethi := and_maskI_eq_iff (w := w) (row := 0x0C000000) (op := 0x03) rfl
  have hsad := and_maskK_eq_iff (w := w) (row := 0x40000000) (op := 0x10) (mode := 0) (by decide) rfl
  have hsadx4 := and_maskK_eq_iff (w := w) (row := 0x44000000) (op := 0x11) (mode := 0) (by decide) rfl
  have hsadavg := and_maskK_eq_iff (w := w) (row := 0x48000000) (op := 0x12) (mode := 0) (by decide) rfl
  rw [LegalFields, MatchesRow, and_maskZ_eq_iff, hsetlo, hsethi, hsad, hsadx4, hsadavg, exists_ipred_row_iff]
  simp only [← or_and_right, and_assoc]

/-- A word that decodes matches the row of its instruction. -/
theorem and_tableMask_of_decode {w : Word} {i : Instr} (hdecode : decode w = .ok i) :
    w &&& i.tableMask = i.tableMatch := by
  rcases decode_eq_ok_iff.1 hdecode with ⟨hop, hrest⟩ | ⟨hop, hrest⟩ | ⟨hop, hrest⟩ | ⟨hop, hrest⟩ | ⟨hop, hrest⟩ |
    ⟨hop, hrest⟩ | ⟨hop, hrest⟩
  case inl =>
    obtain ⟨hzero, rfl⟩ := decodeZ_eq_ok_iff.1 hrest
    exact and_maskZ_eq_iff.2 ⟨hop, hzero⟩
  case inr.inl | inr.inr.inl =>
    obtain ⟨hzero, rd, -, rfl⟩ := decodeI_eq_ok_iff.1 hrest
    exact (and_maskI_eq_iff rfl).2 ⟨hop, hzero⟩
  case inr.inr.inr.inl | inr.inr.inr.inr.inl | inr.inr.inr.inr.inr.inl =>
    obtain ⟨hzero, bw, bh, -, -, hmode, -, rfl⟩ := decodeSad_eq_ok_iff.1 hrest
    exact (and_maskK_eq_iff (by decide) rfl).2 ⟨hop, hmode, hzero⟩
  case inr.inr.inr.inr.inr.inr =>
    obtain ⟨hzero, n, mk, -, -, hmk, -, rfl⟩ := decodeIpred_eq_ok_iff.1 hrest
    obtain ⟨hmask, hmatch⟩ := table_of_ipredOfMode? hmk n (Tag.ofCode (bits w 15 14))
    rw [hmask, hmatch]
    exact (and_maskK_eq_ipred_iff (lt_ten_of_ipredOfMode? hmk)).2 ⟨hop, rfl, hzero⟩

/-- Settles O3: a word decodes exactly when its fields are those of a command, which is when it matches a row; and it
matches the row of the instruction it decodes to. -/
theorem legalWordsAreTheTableRows : Obligations.LegalWordsAreTheTableRows :=
  ⟨fun w => (exists_decode_iff w).trans (legalFields_iff_matchesRow w), fun _ _ => and_tableMask_of_decode⟩

end Sys2Proof

namespace Sys2Proof.Machine

/-! ### Offering a word that is no command (30_encoding.md R111 to R113) -/

/-- A ready core runs the word it is offered (10_state.md R38, R39). -/
theorem step_of_offered {s : State} {w : Word} {rest : List HostAction} (hoffer : s.Offered w rest) :
    step s = runCommand w { s with host := rest } := by
  obtain ⟨hready, hhost⟩ := hoffer
  have hnext : s.nextActions = .command w :: rest := by simp [State.nextActions, hready, hhost]
  exact step_of_nextActions hnext

theorem runCommand_of_illegal {w : Word} (hillegal : ∀ i, decode w ≠ .ok i) (s : State) :
    runCommand w s = .next (s.accept.raise .illegalCmd w) := by
  unfold runCommand
  split
  case h_1 i hdecode => exact absurd hdecode (hillegal i)
  case h_2 => rfl

/-- An offered word that does not decode takes the fault, with nothing else changed (60_exceptions.md R242, R246). -/
theorem step_of_offered_illegal {s : State} {w : Word} {rest : List HostAction} (hoffer : s.Offered w rest)
    (hillegal : ∀ i, decode w ≠ .ok i) :
    ∃ t, step s = .next t ∧ Faulted { s with host := rest } t .illegalCmd w :=
  ⟨_, (step_of_offered hoffer).trans (runCommand_of_illegal hillegal _), rfl⟩

/-- Settles O5: each reservation contradicts the fields of a legal word, so the word does not decode. -/
theorem reservedWordsRaiseIllegalCmd : Obligations.ReservedWordsRaiseIllegalCmd := by
  intro w s rest hoffer hreserved
  refine step_of_offered_illegal hoffer (fun i hdecode => ?_)
  simp only [List.mem_cons, List.not_mem_nil, or_false] at hreserved
  rcases (exists_decode_iff w).1 ⟨i, hdecode⟩ with ⟨hop, hzero⟩ | ⟨hop, hzero, hrd⟩ | ⟨hop, hmode, hzero, hshape⟩ |
    ⟨hop, hmode, hzero, hsquare, hside⟩
  · omega
  · omega
  · obtain ⟨hcw, hch⟩ := codes_le_of_mem_sadShapes hshape
    simp only [hshape, not_true, or_false] at hreserved
    omega
  · omega

end Sys2Proof.Machine

/-! ## What SAD returns, and why no sum overflows (40_sad.md R140 to R145)

A sample is below `256 ^ ss`, so a block of at most 64 by 64 absolute differences is far below `2 ^ 32`: SUM holds the
value its policy returns, never a value reduced modulo `2 ^ 32`. What the policy `row_partial` returns is said by an
induction over the row sums, as a prefix of them. -/

namespace Sys2Proof

/-- The three wide tags share one container (00_scope.md R6). -/
theorem Tag.ss_of_ne_b8 {t : Tag} (ht : t ≠ .b8) : t.ss = 2 := by
  cases t with
  | b8 => exact absurd rfl ht
  | h8 | h10 | h12 => rfl

end Sys2Proof

namespace Sys2Proof.Machine

/-! ### Bounds on the sums (40_sad.md R141) -/

theorem absdiff_le {a b c : Nat} (ha : a ≤ c) (hb : b ≤ c) : absdiff a b ≤ c := by
  rw [absdiff_eq_natAbs]
  omega

theorem avg2_le {a b c : Nat} (ha : a ≤ c) (hb : b ≤ c) : avg2 a b ≤ c := by
  rw [avg2]
  omega

/-- A block has at most 4096 samples. -/
theorem sumTo_sumTo_le {w h : Dim} {b : Nat} {f : Nat → Nat → Nat} (hf : ∀ y < h.size, ∀ x < w.size, f y x ≤ b) :
    sumTo h.size (fun y => sumTo w.size (f y)) ≤ 4096 * b :=
  calc sumTo h.size (fun y => sumTo w.size (f y))
      ≤ h.size * (w.size * b) := sumTo_le _ _ _ (fun y hy => sumTo_le _ _ _ (hf y hy))
    _ ≤ 64 * (64 * b) := Nat.mul_le_mul h.size_le (Nat.mul_le_mul_right b w.size_le)
    _ = 4096 * b := by ring

/-- Samples of at most `b` give an exact sum of at most `4096 * b`. -/
theorem State.exactSum_le {s : State} {k ss b : Nat} {w h : Dim}
    (hb : ∀ y < h.size, ∀ x < w.size, s.srcAt ss x y ≤ b ∧ s.refAt k ss x y ≤ b) :
    s.exactSum k w.size h.size ss ≤ 4096 * b :=
  sumTo_sumTo_le (fun y hy x hx => absdiff_le (hb y hy x hx).1 (hb y hy x hx).2)

/-- A sample fits in the widest container. -/
theorem State.pix_le_container (s : State) (p : Word) (stride x y : Nat) (tag : Tag) :
    s.pix p stride x y tag.ss ≤ 65535 := by
  have hlt := s.pix_lt p stride x y tag.ss
  rcases tag.ss_cases with hss | hss <;> rw [hss] at hlt ⊢ <;> omega

theorem State.pix_le_byte (s : State) (p : Word) (stride x y : Nat) : s.pix p stride x y 1 ≤ 255 :=
  Nat.le_of_lt_succ (s.pix_lt p stride x y 1)

theorem State.exactSum_le_container (s : State) (k : Nat) (w h : Dim) (tag : Tag) :
    s.exactSum k w.size h.size tag.ss ≤ 268431360 :=
  State.exactSum_le (b := 65535) (fun _ _ _ _ => ⟨s.pix_le_container _ _ _ _ tag, s.pix_le_container _ _ _ _ tag⟩)

theorem State.exactSum_le_bytes (s : State) (k : Nat) (w h : Dim) : s.exactSum k w.size h.size 1 ≤ 1044480 :=
  State.exactSum_le (b := 255) (fun _ _ _ _ => ⟨s.pix_le_byte _ _ _ _, s.pix_le_byte _ _ _ _⟩)

theorem State.averagedSum_le_container (s : State) (w h : Dim) (tag : Tag) :
    s.averagedSum w.size h.size tag.ss ≤ 268431360 :=
  sumTo_sumTo_le (b := 65535) (fun _ _ _ _ => absdiff_le (s.pix_le_container _ _ _ _ tag)
    (avg2_le (s.pix_le_container _ _ _ _ tag) (s.pix_le_container _ _ _ _ tag)))

/-! ### A command of the SAD family looks at its tag for the container alone -/

section Container

variable {t u : Tag}

theorem sadEffect_of_ss_eq (hss : t.ss = u.ss) (w h : Dim) : sadEffect w h t = sadEffect w h u := by
  funext s
  simp only [sadEffect, hss]

theorem exec_sad_of_ss_eq (hss : t.ss = u.ss) (w h : Dim) (s : State) :
    exec (.sad w h t) s = exec (.sad w h u) s := by
  have hcheck : sadCheck w h t s = sadCheck w h u s := by
    simp only [sadCheck, samplePointer, State.srcBlk, State.refBlk, hss]
  simp only [exec, execSad, hcheck, sadEffect_of_ss_eq hss]

theorem exec_sadx4_of_ss_eq (hss : t.ss = u.ss) (w h : Dim) (s : State) :
    exec (.sadx4 w h t) s = exec (.sadx4 w h u) s := by
  have hcheck : sadx4Check w h t s = sadx4Check w h u s := by
    simp only [sadx4Check, samplePointer, State.srcBlk, State.refBlk, hss]
  simp only [exec, execSadx4, hcheck, sadx4Stores, hss]

theorem exec_sadavg_of_ss_eq (hss : t.ss = u.ss) (w h : Dim) (s : State) :
    exec (.sadavg w h t) s = exec (.sadavg w h u) s := by
  have hcheck : sadavgCheck w h t s = sadavgCheck w h u s := by
    simp only [sadavgCheck, samplePointer, State.srcBlk, State.refBlk, State.pred2Blk, hss]
  simp only [exec, execSadavg, hcheck, hss]

end Container

/-- Settles O36: at most 4096 differences, each at most the largest sample; and the three wide tags share their
container, which is all a command of the family looks at. -/
theorem sumsNeverOverflow : Obligations.SumsNeverOverflow := by
  refine ⟨fun s k w h tag => ?_, fun w h s t u ht hu => ?_⟩
  · exact ⟨s.exactSum_le_container k w h tag, s.averagedSum_le_container w h tag, s.exactSum_le_bytes k w h,
      State.exactSum_le (b := 4095)⟩
  · have hss : t.ss = u.ss := (Tag.ss_of_ne_b8 ht).trans (Tag.ss_of_ne_b8 hu).symm
    exact ⟨exec_sad_of_ss_eq hss w h s, exec_sadx4_of_ss_eq hss w h s, exec_sadavg_of_ss_eq hss w h s⟩

/-! ### The row-granular partial sum (40_sad.md R144) -/

/-- Where no running sum exceeds the bound, the partial sum is the whole one. -/
theorem rowPartialFrom_of_le {m p : Nat} {rs : List Nat} (hle : p + rs.sum ≤ m) :
    rowPartialFrom m p rs = p + rs.sum := by
  induction rs generalizing p with
  | nil => rfl
  | cons r rs ih =>
    rw [List.sum_cons, ← Nat.add_assoc] at hle ⊢
    rw [rowPartialFrom, if_neg (by omega), ih hle]

/-- Where the whole sum exceeds the bound, the partial sum is the first running sum that does. -/
theorem exists_rowPartialFrom_of_lt {m p : Nat} {rs : List Nat} (hp : p ≤ m) (hlt : m < p + rs.sum) :
    ∃ j < rs.length, rowPartialFrom m p rs = p + (rs.take (j + 1)).sum ∧ m < p + (rs.take (j + 1)).sum ∧
      ∀ i < j, p + (rs.take (i + 1)).sum ≤ m := by
  induction rs generalizing p with
  | nil => exact absurd hlt (not_lt.2 hp)
  | cons r rs ih =>
    simp only [List.take_succ_cons, List.sum_cons, ← Nat.add_assoc, List.length_cons] at hlt ⊢
    by_cases hr : m < p + r
    · exact ⟨0, Nat.succ_pos _, by simp [rowPartialFrom, hr], by simpa using hr, fun i hi => absurd hi i.not_lt_zero⟩
    · obtain ⟨j, hj, heq, hover, hbefore⟩ := ih (not_lt.1 hr) hlt
      refine ⟨j + 1, Nat.succ_lt_succ hj, by rw [rowPartialFrom, if_neg hr, heq], hover, fun i hi => ?_⟩
      cases i with
      | zero => simpa using hr
      | succ i => exact hbefore i (Nat.lt_of_succ_lt_succ hi)

/-- The first rows of a block, as the list the partial sum runs over. -/
theorem sum_take_map_range (f : Nat → Nat) {j n : Nat} (hj : j ≤ n) :
    (((List.range n).map f).take j).sum = ∑ y ∈ Finset.range j, f y := by
  rw [← List.map_take, List.take_range, Nat.min_eq_left hj, ← sumTo_eq_sum, sumTo]

section Rows

variable {s : State} {w h ss m : Nat}

theorem State.rowSum_eq_sum (s : State) (k w ss y : Nat) :
    s.rowSum k w ss y = ∑ x ∈ Finset.range w, ((s.srcAt ss x y : Int) - (s.refAt k ss x y : Int)).natAbs := by
  simp only [State.rowSum, sumTo_eq_sum, absdiff_eq_natAbs]

theorem State.exactSum_eq_sum (s : State) (k w h ss : Nat) :
    s.exactSum k w h ss = ∑ y ∈ Finset.range h, s.rowSum k w ss y := sumTo_eq_sum _ _

theorem State.rowPartial_of_le (hle : s.exactSum 0 w h ss ≤ m) : s.rowPartial w h ss m = s.exactSum 0 w h ss := by
  rw [State.rowPartial, rowPartialFrom_of_le (by rwa [Nat.zero_add]), Nat.zero_add]
  rfl

/-- Above the bound `row_partial` stops after the first row at which the running sum exceeds it. -/
theorem State.exists_rowPartial_of_lt (hlt : m < s.exactSum 0 w h ss) :
    ∃ j < h, s.rowPartial w h ss m = ∑ y ∈ Finset.range (j + 1), s.rowSum 0 w ss y ∧ m < s.rowPartial w h ss m ∧
      ∀ i < j, ∑ y ∈ Finset.range (i + 1), s.rowSum 0 w ss y ≤ m := by
  obtain ⟨j, hj, heq, hover, hbefore⟩ :=
    exists_rowPartialFrom_of_lt (p := 0) (rs := (List.range h).map (fun y => s.rowSum 0 w ss y)) m.zero_le
      (by rwa [Nat.zero_add])
  rw [List.length_map, List.length_range] at hj
  rw [Nat.zero_add] at heq hover
  refine ⟨j, hj, heq.trans (sum_take_map_range _ hj), hover.trans_eq heq.symm, fun i hi => ?_⟩
  have hle := hbefore i hi
  rwa [Nat.zero_add, sum_take_map_range _ (by omega)] at hle

theorem State.rowPartial_le_exactSum (s : State) (w h ss m : Nat) : s.rowPartial w h ss m ≤ s.exactSum 0 w h ss := by
  rcases le_or_gt (s.exactSum 0 w h ss) m with hle | hlt
  · exact (State.rowPartial_of_le hle).le
  · obtain ⟨j, hj, heq, -, -⟩ := State.exists_rowPartial_of_lt hlt
    rw [heq, State.exactSum_eq_sum]
    exact Finset.sum_le_sum_of_subset (Finset.range_subset_range.2 hj)

end Rows

/-! ### The value of each policy (40_sad.md R144) -/

theorem drawFrom_bounds {m : Nat} (hm : m < 2 ^ 32) (draw : Nat) : m ≤ drawFrom m draw ∧ drawFrom m draw < 2 ^ 32 := by
  have hmod : draw % (2 ^ 32 - m) < 2 ^ 32 - m := Nat.mod_lt _ (by omega)
  rw [drawFrom]
  omega

/-- `Result(S, m)` of the SAD the state would run (40_sad.md R144). -/
def State.sadReturn (s : State) (w h : Dim) (tag : Tag) : Nat :=
  sadResult s.platform.sadExit (s.exactSum 0 w.size h.size tag.ss)
    (s.rowPartial w.size h.size tag.ss (s.reg .maxsad).toNat) (s.reg .maxsad) (Config.sadDraw s.draws)

section Policy

variable {s : State} {w h : Dim} {tag : Tag}

/-- Up to the bound every policy returns the exact sum. -/
theorem State.sadReturn_of_le (hle : s.exactSum 0 w.size h.size tag.ss ≤ (s.reg .maxsad).toNat) :
    s.sadReturn w h tag = s.exactSum 0 w.size h.size tag.ss := by
  unfold State.sadReturn
  cases s.platform.sadExit with
  | exact => rfl
  | rowPartial => exact State.rowPartial_of_le hle
  | anyAdmitted => exact if_pos hle

theorem State.sadReturn_of_exact (hp : s.platform.sadExit = .exact) :
    s.sadReturn w h tag = s.exactSum 0 w.size h.size tag.ss := by
  rw [State.sadReturn, hp, sadResult]

theorem State.sadReturn_of_rowPartial (hp : s.platform.sadExit = .rowPartial) :
    s.sadReturn w h tag = s.rowPartial w.size h.size tag.ss (s.reg .maxsad).toNat := by
  rw [State.sadReturn, hp, sadResult]

theorem State.sadReturn_of_anyAdmitted (hp : s.platform.sadExit = .anyAdmitted)
    (hlt : (s.reg .maxsad).toNat < s.exactSum 0 w.size h.size tag.ss) :
    s.sadReturn w h tag = drawFrom (s.reg .maxsad).toNat (Config.sadDraw s.draws).toNat := by
  rw [State.sadReturn, hp, sadResult, if_neg (not_le.2 hlt)]

/-- SUM holds what the policy returns without a reduction. -/
theorem State.sadReturn_lt (s : State) (w h : Dim) (tag : Tag) : s.sadReturn w h tag < 2 ^ 32 := by
  have hexact : s.exactSum 0 w.size h.size tag.ss < 2 ^ 32 :=
    lt_of_le_of_lt (s.exactSum_le_container 0 w h tag) (by norm_num)
  rcases le_or_gt (s.exactSum 0 w.size h.size tag.ss) (s.reg .maxsad).toNat with hle | hlt
  · rwa [State.sadReturn_of_le hle]
  · cases hp : s.platform.sadExit with
    | exact => rwa [State.sadReturn_of_exact hp]
    | rowPartial =>
      rw [State.sadReturn_of_rowPartial hp]
      exact lt_of_le_of_lt (s.rowPartial_le_exactSum _ _ _ _) hexact
    | anyAdmitted =>
      rw [State.sadReturn_of_anyAdmitted hp hlt]
      exact (drawFrom_bounds (s.reg .maxsad).isLt _).2

/-! ### The state after SAD (40_sad.md R142, R145) -/

/-- SUM after SAD is what the policy returns. -/
theorem sadEffect_sum_toNat (w h : Dim) (tag : Tag) (s : State) :
    ((sadEffect w h tag s).reg .sum).toNat = s.sadReturn w h tag := by
  have hsum : (sadEffect w h tag s).reg .sum = BitVec.ofNat 32 (s.sadReturn w h tag) := rfl
  rw [hsum, BitVec.toNat_ofNat, Nat.mod_eq_of_lt (s.sadReturn_lt w h tag)]

/-- SAD that retires changes SUM, GT, the counter of draws, CCNT and BUSY, and nothing else. -/
theorem sadEffect_retire (w h : Dim) (tag : Tag) (s : State) :
    (sadEffect w h tag s).retire =
      { s with regs := s.regs.set .sum ((sadEffect w h tag s).reg .sum), ccnt := s.ccnt + 1,
               draws := (sadEffect w h tag s).draws,
               status := { busy := false, fault := s.status.fault,
                           gt := decide ((s.reg .maxsad).toNat < s.exactSum 0 w.size h.size tag.ss) } } := rfl

/-- Only `any_admitted` uses a draw (log 6). -/
theorem sadEffect_draws (hp : s.platform.sadExit ≠ .anyAdmitted) : (sadEffect w h tag s).draws = s.draws := by
  have hneeded : drawNeeded s.platform.sadExit (s.exactSum 0 w.size h.size tag.ss) (s.reg .maxsad) = false := by
    simp [drawNeeded, hp]
  simp [sadEffect, hneeded]

/-- With both blocks in order, SAD has its effect and retires. -/
theorem exec_sad_of_srcRefOk (hops : s.SrcRefOk 0 w h tag) :
    exec (.sad w h tag) s = .next (sadEffect w h tag s).retire :=
  runKernel_of_pass _ _ _ (sadCheck_pass w h tag s hops)

end Policy

/-- Settles O34: the state after SAD is its effect, SUM in it is the value of the policy, and each policy's value is
read off the cases of the bound. -/
theorem sadReturnsByPolicy : Obligations.SadReturnsByPolicy := by
  intro w h tag s hops
  refine ⟨_, exec_sad_of_srcRefOk hops, ?_⟩
  simp only [← State.rowSum_eq_sum, ← State.exactSum_eq_sum s 0 w.size h.size, State.reg_retire, sadEffect_sum_toNat]
  refine ⟨sadEffect_retire w h tag s, sadEffect_draws, State.sadReturn_of_le, fun hlt =>
    ⟨State.sadReturn_of_exact, fun hp => ?_, fun hp => ?_⟩⟩
  · rw [State.sadReturn_of_rowPartial hp]
    exact State.exists_rowPartial_of_lt hlt
  · rw [State.sadReturn_of_anyAdmitted hp hlt]
    exact (drawFrom_bounds (s.reg .maxsad).isLt _).1

end Sys2Proof.Machine

/-! ## The control commands NOP, SETLO and SETHI (44_control.md R231 to R234)

A control command has no check, so it always retires, and SETLO and SETHI retire from a state with one register written:
what such a state is, is said once for both. Their words share format I, so its reserved words are said once too. -/

namespace Sys2Proof.Machine

/-! ### What a control command does -/

theorem exec_nop (s : State) : exec .nop s = .next s.retire := rfl

theorem exec_setlo (rd : Reg) (imm : BitVec 16) (s : State) :
    exec (.setlo rd imm) s = .next (s.writeReg rd (imm.setWidth 32)).retire := rfl

theorem exec_sethi (rd : Reg) (imm : BitVec 16) (s : State) :
    exec (.sethi rd imm) s =
      .next (s.writeReg rd (BitVec.ofNat 32 (imm.toNat * 2 ^ 16 + (s.reg rd).toNat % 2 ^ 16))).retire := rfl

/-- The value SETLO loads is the immediate (44_control.md R232). -/
theorem toNat_setloValue (imm : BitVec 16) : (imm.setWidth 32).toNat = imm.toNat :=
  BitVec.toNat_setWidth_of_le (by decide)

/-- The two halves SETHI puts together fit in a register (44_control.md R234). -/
theorem toNat_sethiValue (imm : BitVec 16) (old : Word) :
    (BitVec.ofNat 32 (imm.toNat * 2 ^ 16 + old.toNat % 2 ^ 16)).toNat = imm.toNat * 65536 + old.toNat % 65536 := by
  have himm : imm.toNat < 2 ^ 16 := imm.isLt
  rw [BitVec.toNat_ofNat]
  omega

/-- A command that writes one register and retires: the register holds the value, and nothing changes but that register
and what retiring changes. -/
theorem frame_of_exec_writeReg {i : Instr} {s : State} {rd : Reg} {v : Word} {n : Nat}
    (hexec : exec i s = .next (s.writeReg rd v).retire) (hvalue : v.toNat = n) :
    ∃ t, exec i s = .next t ∧ (t.reg rd).toNat = n ∧ (∀ r, r ≠ rd → t.reg r = s.reg r) ∧
      t = { s with regs := t.regs, ccnt := s.ccnt + 1, status := { s.status with busy := false } } := by
  refine ⟨_, hexec, ?_, fun r hr => ?_, rfl⟩
  · rw [State.reg_retire, State.reg_writeReg_self, hvalue]
  · rw [State.reg_retire, State.reg_writeReg_ne s rd r v hr]

/-! ### The words of the control commands -/

section Words

variable {w : Word}

/-- NOP has one word (44_control.md R231). -/
theorem eq_nopWord_of_bits (hop : bits w 31 26 = 0x01) (hzero : bits w 25 0 = 0) : w = 0x04000000 :=
  calc w = w &&& 0xFFFFFFFF := BitVec.and_allOnes.symm
    _ = 0x04000000 := and_maskZ_eq_iff.2 ⟨hop, hzero⟩

theorem decode_eq_nop (hop : bits w 31 26 = 0x01) (hzero : bits w 25 0 = 0) : decode w = .ok .nop :=
  decode_eq_ok_iff.2 (.inl ⟨hop, decodeZ_eq_ok_iff.2 ⟨hzero, rfl⟩⟩)

/-- A word of format I names its register in 25:22 and has its immediate in 15:0 (30_encoding.md R102). -/
theorem decodeI_eq_ok {rd : Reg} (mk : Reg → BitVec 16 → Instr) (hzero : bits w 21 16 = 0)
    (hrd : bits w 25 22 = rd.number) : decodeI mk w = .ok (mk rd (BitVec.ofNat 16 (bits w 15 0))) :=
  decodeI_eq_ok_iff.2 ⟨hzero, rd, hrd.symm, rfl⟩

variable {s : State} {rest : List HostAction}

/-- NOP's opcode with any other bit set is a reserved word (30_encoding.md R112). -/
theorem step_of_offered_reservedZ (hoffer : s.Offered w rest) (hop : bits w 31 26 = 0x01) (hset : bits w 25 0 ≠ 0) :
    ∃ t, step s = .next t ∧ Faulted { s with host := rest } t .illegalCmd w :=
  reservedWordsRaiseIllegalCmd w s rest hoffer (.inr (.inl ⟨hop, hset⟩))

/-- Register number 15 and a bit of 21:16 set are reserved in both commands of format I (30_encoding.md R112). -/
theorem step_of_offered_reservedI (hoffer : s.Offered w rest) (hop : bits w 31 26 ∈ [0x02, 0x03])
    (hreserved : bits w 25 22 = 15 ∨ bits w 21 16 ≠ 0) :
    ∃ t, step s = .next t ∧ Faulted { s with host := rest } t .illegalCmd w :=
  reservedWordsRaiseIllegalCmd w s rest hoffer (.inr (.inr (.inl ⟨hop, hreserved.symm⟩)))

end Words

/-- Settles O28: NOP's arm is `retire`, and the fields of its one word leave no other. -/
theorem nopOnlyRetires : Obligations.NopOnlyRetires :=
  ⟨exec_nop, rfl, fun _ hop hzero => ⟨eq_nopWord_of_bits hop hzero, decode_eq_nop hop hzero⟩,
    fun _ _ _ => step_of_offered_reservedZ⟩

/-- Settles O29: SETLO writes one register and retires, and its words are those of format I. -/
theorem setloLoadsZeroExtended : Obligations.SetloLoadsZeroExtended := by
  refine ⟨fun rd imm s => frame_of_exec_writeReg (exec_setlo rd imm s) (toNat_setloValue imm),
    fun w rd hop hzero hrd => ?_, fun w s rest hoffer hop => step_of_offered_reservedI hoffer (by simp [hop])⟩
  exact decode_eq_ok_iff.2 (.inr (.inl ⟨hop, decodeI_eq_ok .setlo hzero hrd⟩))

/-- Settles O30: SETHI writes one register, from its own old lower half, and retires; its words are those of format
I. -/
theorem sethiLoadsUpperHalf : Obligations.SethiLoadsUpperHalf := by
  refine ⟨fun rd imm s => frame_of_exec_writeReg (exec_sethi rd imm s) (toNat_sethiValue imm (s.reg rd)),
    fun w rd hop hzero hrd => ?_, fun w s rest hoffer hop => step_of_offered_reservedI hoffer (by simp [hop])⟩
  exact decode_eq_ok_iff.2 (.inr (.inr (.inl ⟨hop, decodeI_eq_ok .sethi hzero hrd⟩)))

end Sys2Proof.Machine

/-! ## Taking a fault (60_exceptions.md R243 to R249)

The check of a command is its row in the tables of 60_exceptions.md: the stride it tests, the pointers in
register-number order, the addresses of both footprints. Each of the three conditions then holds exactly when its part
of the check finds nothing, and what each part reports is the first operand out of order. The statements on faults are
settled from these. -/

namespace Sys2Proof

/-- Every side has a sample beside the last one: D117 reads `left` without its last sample (20_memory.md R73). -/
theorem Dim.size_sub_one_ne_zero (n : Dim) : n.size - 1 ≠ 0 := by cases n <;> decide

/-- An address outside the space, or not mapped, is not accessible (20_memory.md R76). -/
theorem Platform.accessible_eq_false {p : Platform} {a : Int}
    (ha : a < 0 ∨ 2 ^ 32 - 1 < a ∨ p.mapped a.toNat = false) : p.accessible a = false := by
  rw [← Bool.not_eq_true, Platform.accessible_iff]
  rintro ⟨hlo, hhi, hmapped⟩
  rcases ha with hneg | hbig | hunmapped
  · omega
  · omega
  · exact absurd (hunmapped.symm.trans hmapped) Bool.false_ne_true

end Sys2Proof

namespace Sys2Proof.Machine

/-! ### The fault state (60_exceptions.md R249) -/

/-- With `cmd_ready` 0 no command is executing, so a reset during the offer is a plain reset
(70_reset_and_hazards.md R281). -/
theorem State.abandon_of_not_ready {s : State} (hready : s.ready = false) (w : Word) : s.abandon w = s.resetCore := by
  simp [State.abandon, hready]

/-- Settles O12: a step of a faulted core is a reset, plain or during an offer, or it keeps the core; and between
commands the read port gives the selected register. -/
theorem faultStateIsLeftByResetOnly : Obligations.FaultStateIsLeftByResetOnly := by
  refine ⟨fun s t hfault hstep => ?_, fun s sel rest _ hbusy hhost => ?_⟩
  · rcases step_of_fault hfault hstep with ⟨rest, hnext, rfl⟩ | ⟨w, rest, hnext, ht⟩ | hsame
    · exact .inr ⟨⟨rest, .inl hnext⟩, rfl, rfl, rfl, rfl, rfl⟩
    · have hready : ({ s with host := rest } : State).ready = false := State.not_ready_of_fault hfault
      obtain rfl := ht.trans (State.abandon_of_not_ready hready w)
      exact .inr ⟨⟨rest, .inr ⟨w, hnext⟩⟩, rfl, rfl, rfl, rfl, rfl⟩
    · exact .inl ⟨hsame.regs, hsame.status, hsame.cause, hsame.finfo, hsame.ccnt⟩
  · refine ⟨_, step_of_not_command hhost rfl, State.readPort_eq_selected (fun hbusy' => ?_)⟩
    exact absurd (hbusy.symm.trans hbusy') Bool.false_ne_true

/-! ### The check of a command is its row in the tables -/

theorem commandCheck_destStride (i : Instr) (s : State) :
    (commandCheck i s).destStride = i.destSide?.map (fun n => (n.size, s.reg .dsts)) := by
  cases i <;> rfl

/-- A mode that reads a neighbour array tests its pointer (60_exceptions.md R243). -/
theorem neighbourPointer_idxFrom {n : Nat} (hn : n ≠ 0) (lo : Int) (s : State) (tag : Tag) (r : Reg) :
    neighbourPointer (idxFrom lo n) s tag r = [(s.reg r, tag.ss)] := by
  simp [neighbourPointer, samplePointer, idxFrom, hn]

/-- A mode that does not read a neighbour array does not test its pointer (60_exceptions.md R243). -/
theorem neighbourPointer_nil (s : State) (tag : Tag) (r : Reg) : neighbourPointer [] s tag r = [] := rfl

/-- The pointers a command tests are those of the table of 60_exceptions.md R243. -/
theorem commandCheck_pointers (i : Instr) (s : State) :
    (commandCheck i s).pointers = i.pointerTests.map (fun p => (s.reg p.1, p.2)) := by
  cases i with
  | nop | setlo rd imm | sethi rd imm | sad w h tag | sadx4 w h tag | sadavg w h tag => rfl
  | ipredDc n tag | ipredDcLeft n tag | ipredDcTop n tag | ipredDc128 n tag | ipredV n tag | ipredH n tag
  | ipredTm n tag | ipredD45 n tag | ipredD117 n tag | ipredD135 n tag =>
    have hside : n.size ≠ 0 := n.size_pos.ne'
    have hlast : n.size - 1 ≠ 0 := n.size_sub_one_ne_zero
    simp [commandCheck, ipredCheck, samplePointer, Instr.pointerTests, readsDc, readsDcLeft, readsDcTop, readsDc128,
      readsV, readsH, readsTm, readsD45, readsD117, readsD135, Config.d45AboveExtent, neighbourPointer_nil,
      neighbourPointer_idxFrom, hside, hlast]

/-- A command checks the addresses of both its footprints, in the order of 60_exceptions.md R245. -/
theorem commandCheck_footprint (i : Instr) (s : State) : (commandCheck i s).footprint = testedAddresses s i := by
  cases hside : i.destSide? with
  | some n =>
    obtain ⟨_, tag, nb, pred, hform⟩ := exists_intraForm (i := i) (by rw [hside]; rfl)
    rw [testedAddresses, hside, hform.check, hform.writes, hform.reads]
    exact List.append_assoc _ _ _
  | none =>
    cases i with
    | nop | setlo rd imm | sethi rd imm | sadx4 w h tag => rfl
    | sad w h tag | sadavg w h tag => exact (List.append_nil _).symm
    | _ => cases hside

/-! ### When a part of the check finds nothing -/

section Conditions

variable {i : Instr} {s : State}

theorem strideFault_eq_none_iff_strideOk : (commandCheck i s).strideFault = none ↔ StrideOk s i := by
  rw [KernelCheck.strideFault_eq_none_iff, commandCheck_destStride]
  simp [StrideOk]

theorem alignFault_eq_none_iff_pointersOk : (commandCheck i s).alignFault = none ↔ PointersOk s i := by
  rw [KernelCheck.alignFault_eq_none_iff, commandCheck_pointers]
  exact List.forall_mem_map

theorem accessFault_eq_none_iff_addressesOk :
    (commandCheck i s).accessFault s.platform = none ↔ AddressesOk s i := by
  rw [KernelCheck.accessFault_eq_none_iff, commandCheck_footprint]

end Conditions

/-! ### What a part of the check reports -/

section Reports

variable {c : KernelCheck} {p : Platform} {f : Cause × Word}

theorem KernelCheck.strideFault_of_lt {n : Nat} {dsts : Word} (hstride : c.destStride = some (n, dsts))
    (hlt : dsts.toNat < n) : c.strideFault = some (.dstStride, dsts) := by
  simp [KernelCheck.strideFault, hstride, hlt]

/-- The first pointer out of order is the one reported (60_exceptions.md R243). -/
theorem KernelCheck.alignFault_of_first {before after : List (Word × Nat)} {q : Word × Nat}
    (hpointers : c.pointers = before ++ q :: after) (hbefore : ∀ b ∈ before, b.1.toNat % b.2 = 0)
    (hq : q.1.toNat % q.2 ≠ 0) : c.alignFault = some (.misaligned, q.1) := by
  have hfind : c.pointers.find? (fun b => decide (b.1.toNat % b.2 ≠ 0)) = some q :=
    List.find?_eq_some_iff_append.2 ⟨by simpa using hq, before, after, hpointers, by simpa using hbefore⟩
  rw [KernelCheck.alignFault, hfind]

/-- The first address out of range or not mapped is the one reported (60_exceptions.md R245). -/
theorem KernelCheck.accessFault_of_first {before after : List Int} {a : Int}
    (hfootprint : c.footprint = before ++ a :: after) (hbefore : ∀ b ∈ before, p.accessible b = true)
    (ha : p.accessible a = false) : c.accessFault p = some (.access, BitVec.ofInt 32 a) := by
  have hfind : c.footprint.find? (fun b => !p.accessible b) = some a :=
    List.find?_eq_some_iff_append.2 ⟨by simpa using ha, before, after, hfootprint, by simpa using hbefore⟩
  rw [KernelCheck.accessFault, hfind]

/-! The order of priority (60_exceptions.md R247): a part of the check reports only when the parts before it find
nothing. -/

theorem KernelCheck.firstFault_of_stride (hstride : c.strideFault = some f) : c.firstFault p = some f := by
  rw [KernelCheck.firstFault, hstride]

theorem KernelCheck.firstFault_of_align (hstride : c.strideFault = none) (halign : c.alignFault = some f) :
    c.firstFault p = some f := by
  rw [KernelCheck.firstFault, hstride, halign]

theorem KernelCheck.firstFault_of_access (hstride : c.strideFault = none) (halign : c.alignFault = none) :
    c.firstFault p = c.accessFault p := by
  rw [KernelCheck.firstFault, hstride, halign]

end Reports

/-! ### What a command with a fault does -/

theorem exec_of_firstFault {i : Instr} {s : State} {f : Cause × Word}
    (hfault : (commandCheck i s).firstFault s.platform = some f) : exec i s = .next (s.raise f.1 f.2) := by
  rw [exec_eq_runKernel]
  exact runKernel_of_fault _ _ _ _ _ hfault

theorem exec_of_firstFault_eq_none {i : Instr} {s : State}
    (hpass : (commandCheck i s).firstFault s.platform = none) : exec i s = .next (commandEffect i s).retire := by
  rw [exec_eq_runKernel]
  exact runKernel_of_pass _ _ _ hpass

/-- Settles O24: the stride is the first part of the check, and it reports the stride. -/
theorem smallDestinationStrideFaults : Obligations.SmallDestinationStrideFaults := by
  intro i s n hside hlt
  have hstride : (commandCheck i s).destStride = some (n.size, s.reg .dsts) := by
    rw [commandCheck_destStride, hside]
    rfl
  exact ⟨_, exec_of_firstFault (KernelCheck.firstFault_of_stride (KernelCheck.strideFault_of_lt hstride hlt)), rfl⟩

/-- Settles O25: with the stride in order the pointers are searched in the order of the table. -/
theorem firstMisalignedPointerFaults : Obligations.FirstMisalignedPointerFaults := by
  intro i s before after r k hstride htests hbefore hr
  have hpointers : (commandCheck i s).pointers =
      before.map (fun p => (s.reg p.1, p.2)) ++ (s.reg r, k) :: after.map (fun p => (s.reg p.1, p.2)) := by
    rw [commandCheck_pointers, htests, List.map_append, List.map_cons]
  have halign : (commandCheck i s).alignFault = some (.misaligned, s.reg r) :=
    KernelCheck.alignFault_of_first hpointers (List.forall_mem_map.2 hbefore) hr
  exact ⟨_, exec_of_firstFault
    (KernelCheck.firstFault_of_align (strideFault_eq_none_iff_strideOk.2 hstride) halign), rfl⟩

/-- Settles O26: with the stride and the pointers in order the addresses are searched in the order they are tested. -/
theorem firstInaccessibleByteFaults : Obligations.FirstInaccessibleByteFaults := by
  intro i s before after a hstride hpointers htested hbefore ha
  have haccess : (commandCheck i s).accessFault s.platform = some (.access, BitVec.ofInt 32 a) :=
    KernelCheck.accessFault_of_first ((commandCheck_footprint i s).trans htested) hbefore
      (Platform.accessible_eq_false ha)
  have hfirst := KernelCheck.firstFault_of_access (p := s.platform) (strideFault_eq_none_iff_strideOk.2 hstride)
    (alignFault_eq_none_iff_pointersOk.2 hpointers)
  exact ⟨_, exec_of_firstFault (hfirst.trans haccess), rfl⟩

/-! ### One fault, by priority (60_exceptions.md R247) -/

/-! No effect counts a command or writes what records a fault: retiring does the one, raising the other. -/

@[simp] theorem commandEffect_ccnt (i : Instr) (s : State) : (commandEffect i s).ccnt = s.ccnt := by
  cases i <;> rfl

@[simp] theorem commandEffect_status_fault (i : Instr) (s : State) :
    (commandEffect i s).status.fault = s.status.fault := by
  cases i <;> rfl

@[simp] theorem commandEffect_cause (i : Instr) (s : State) : (commandEffect i s).cause = s.cause := by
  cases i <;> rfl

section Priority

variable {i : Instr} {s : State}

theorem exec_of_not_strideOk (hstride : ¬ StrideOk s i) : ∃ info, exec i s = .next (s.raise .dstStride info) := by
  obtain ⟨f, hf⟩ := Option.ne_none_iff_exists'.1 (mt strideFault_eq_none_iff_strideOk.1 hstride)
  obtain ⟨hcause, -⟩ := KernelCheck.strideFault_some _ _ hf
  exact ⟨f.2, hcause ▸ exec_of_firstFault (KernelCheck.firstFault_of_stride hf)⟩

theorem exec_of_not_pointersOk (hstride : StrideOk s i) (hpointers : ¬ PointersOk s i) :
    ∃ info, exec i s = .next (s.raise .misaligned info) := by
  obtain ⟨f, hf⟩ := Option.ne_none_iff_exists'.1 (mt alignFault_eq_none_iff_pointersOk.1 hpointers)
  obtain ⟨hcause, -⟩ := KernelCheck.alignFault_some _ _ hf
  exact ⟨f.2, hcause ▸ exec_of_firstFault
    (KernelCheck.firstFault_of_align (strideFault_eq_none_iff_strideOk.2 hstride) hf)⟩

/-- With the stride and the pointers in order, the addresses alone decide. -/
theorem firstFault_of_pointersOk (hstride : StrideOk s i) (hpointers : PointersOk s i) :
    (commandCheck i s).firstFault s.platform = (commandCheck i s).accessFault s.platform :=
  KernelCheck.firstFault_of_access (strideFault_eq_none_iff_strideOk.2 hstride)
    (alignFault_eq_none_iff_pointersOk.2 hpointers)

theorem exec_of_not_addressesOk (hstride : StrideOk s i) (hpointers : PointersOk s i)
    (haddresses : ¬ AddressesOk s i) : ∃ info, exec i s = .next (s.raise .access info) := by
  obtain ⟨f, hf⟩ := Option.ne_none_iff_exists'.1 (mt accessFault_eq_none_iff_addressesOk.1 haddresses)
  obtain ⟨hcause, -⟩ := KernelCheck.accessFault_some _ _ _ hf
  exact ⟨f.2, hcause ▸ exec_of_firstFault ((firstFault_of_pointersOk hstride hpointers).trans hf)⟩

theorem exec_of_addressesOk (hstride : StrideOk s i) (hpointers : PointersOk s i) (haddresses : AddressesOk s i) :
    exec i s = .next (commandEffect i s).retire :=
  exec_of_firstFault_eq_none
    ((firstFault_of_pointersOk hstride hpointers).trans (accessFault_eq_none_iff_addressesOk.2 haddresses))

end Priority

/-- Settles O27: a word that does not decode is no command; a command raises what the first failing part of its check
reports, and retires when none fails. -/
theorem faultsAreReportedInPriorityOrder : Obligations.FaultsAreReportedInPriorityOrder := by
  refine ⟨fun w s rest hoffer hillegal => ?_, fun i s _ => ?_⟩
  · obtain ⟨t, hstep, rfl⟩ := step_of_offered_illegal hoffer hillegal
    exact ⟨_, hstep, rfl, rfl⟩
  · by_cases hstride : StrideOk s i
    case neg =>
      obtain ⟨info, hexec⟩ := exec_of_not_strideOk hstride
      exact ⟨_, hexec, fun _ => ⟨rfl, rfl⟩, fun h => absurd h hstride, fun h => absurd h hstride,
        fun h => absurd h hstride⟩
    by_cases hpointers : PointersOk s i
    case neg =>
      obtain ⟨info, hexec⟩ := exec_of_not_pointersOk hstride hpointers
      exact ⟨_, hexec, fun h => absurd hstride h, fun _ _ => ⟨rfl, rfl⟩, fun _ h => absurd h hpointers,
        fun _ h => absurd h hpointers⟩
    by_cases haddresses : AddressesOk s i
    case neg =>
      obtain ⟨info, hexec⟩ := exec_of_not_addressesOk hstride hpointers haddresses
      exact ⟨_, hexec, fun h => absurd hstride h, fun _ h => absurd hpointers h, fun _ _ _ => ⟨rfl, rfl⟩,
        fun _ _ h => absurd h haddresses⟩
    exact ⟨_, exec_of_addressesOk hstride hpointers haddresses, fun h => absurd hstride h,
      fun _ h => absurd hpointers h, fun _ _ h => absurd haddresses h, fun _ _ _ => by simp⟩

end Sys2Proof.Machine

/-! ## A reset during a command (70_reset_and_hazards.md R281)

The abandoned command leaves a mix of the memory before it and the memory it would have left. A byte of a mix is the
byte of one of the two when both are canonical, so what is missing is that a command keeps memory canonical: all it does
to memory is a list of stores in the mapped space. That the two memories agree outside the write footprint is O23. -/

namespace Sys2Proof.Machine

/-! ### A command keeps memory canonical -/

section Canonical

variable {i : Instr} {s : State}

/-- The bytes a command that passes its checks will write are in range and mapped (20_memory.md R76). -/
theorem accessible_of_mem_writeFootprint (hpass : (commandCheck i s).firstFault s.platform = none) :
    ∀ a ∈ writeFootprint s i, s.platform.accessible a = true := by
  intro a ha
  obtain ⟨-, -, hacc⟩ := (KernelCheck.firstFault_eq_none_iff _ _).1 hpass
  refine hacc a ?_
  rw [commandCheck_footprint, testedAddresses]
  cases i.destSide? with
  | some n => exact List.mem_append_left _ ha
  | none => exact List.mem_append_right _ ha

/-- All that a command does to memory is a list of stores in range: SADX4 stores its sums, an intra command its block,
every other command nothing (20_memory.md R74). -/
theorem exists_storeAll_of_pass (hpass : (commandCheck i s).firstFault s.platform = none) :
    ∃ n stores, StoresInRange n stores ∧ (commandEffect i s).mem = s.mem.storeAll n stores := by
  have hacc := accessible_of_mem_writeFootprint hpass
  cases hside : i.destSide? with
  | some n =>
    obtain ⟨n, tag, nb, pred, hform⟩ := exists_intraForm (i := i) (by rw [hside]; rfl)
    rw [hform.writes] at hacc
    have hrange := storesInRange_of_accessible (p := s.platform) tag.ss_pos
      (fun a ha => hacc a ((mem_dstBlk_iff_storedAt n tag pred s a).2 ha))
    exact ⟨tag.ss, ipredStores n tag pred s, hrange, by rw [hform.effect, ipredEffect, State.withMem_mem]⟩
  | none =>
    cases i with
    | sadx4 w h tag =>
      have hrange := storesInRange_of_accessible (p := s.platform) (n := 4) (by decide)
        (fun a ha => hacc a ((mem_outBytes_iff_storedAt w h tag s a).2 ha))
      exact ⟨4, sadx4Stores w h tag s, hrange, by rw [commandEffect, State.withMem_mem]⟩
    | nop | setlo rd imm | sethi rd imm | sad w h tag | sadavg w h tag => exact ⟨0, [], List.forall_mem_nil _, rfl⟩
    | _ => cases hside

/-- A command keeps memory canonical, whether it faults or retires. -/
theorem mem_wf_of_exec {t : State} (hs : s.mem.wf) (hexec : exec i s = .next t) : t.mem.wf := by
  rcases exec_cases i s with ⟨cause, info, -, -, hfault⟩ | ⟨hpass, hretire⟩
  · obtain rfl := Host.Outcome.next.inj (hfault.symm.trans hexec)
    exact hs
  · obtain rfl := Host.Outcome.next.inj (hretire.symm.trans hexec)
    obtain ⟨n, stores, hrange, hmem⟩ := exists_storeAll_of_pass hpass
    rw [State.retire_mem, hmem]
    exact Memory.storeAll_wf _ _ _ hrange hs

/-- A command, whether it faults or retires, writes no byte outside its write footprint (20_memory.md R75). -/
theorem read_mem_of_exec {t : State} (hs : s.mem.wf) (hexec : exec i s = .next t) {x : Nat}
    (hx : (x : Int) ∉ writeFootprint s i) : t.mem.read x = s.mem.read x := by
  obtain ⟨u, -, hu, -, -, -, hframe⟩ := commandsStayInTheirFootprints i s s.mem hs hs (fun _ _ => rfl)
  obtain rfl := Host.Outcome.next.inj (hu.symm.trans hexec)
  exact hframe x hx

end Canonical

/-! ### The abandoned command -/

/-- A write footprint depends on the operand registers alone. -/
theorem writeFootprint_of_regs_eq {s s' : State} (hregs : s'.regs = s.regs) (i : Instr) :
    writeFootprint s' i = writeFootprint s i := by
  cases i <;> simp only [writeFootprint, State.outBytes, State.dstBlk, State.reg, hregs]

/-- A byte of a mix is the byte of one of the two memories. -/
theorem Memory.read_mix_eq_or {m m' : Memory} (hm : m.wf) (hm' : m'.wf) (pick : Nat → Bool) (x : Nat) :
    (m.mix m' pick).read x = m.read x ∨ (m.mix m' pick).read x = m'.read x := by
  rw [Memory.read_mix m m' pick hm hm' x]
  cases pick x with
  | false => exact .inl rfl
  | true => exact .inr rfl

/-- At a ready core the reset leaves the mix of the memory before and the memory the command would have left, in a core
that is reset. -/
theorem State.abandon_of_exec {s u : State} {w : Word} {i : Instr} (hready : s.ready = true)
    (hdecode : decode w = .ok i) (hexec : exec i s.accept = .next u) :
    s.abandon w = ({ s with mem := s.mem.mix u.mem (Config.abandonedByteWritten s.draws),
                            draws := s.draws + 1 } : State).resetCore := by
  have hrun : runCommand w s = .next u := by simp only [runCommand, hdecode, hexec]
  rw [State.abandon, if_pos hready, hrun]

theorem exists_exec_eq_next (i : Instr) (s : State) : ∃ t, exec i s = .next t := by
  rcases exec_cases i s with ⟨_, _, -, -, hfault⟩ | ⟨-, hretire⟩
  exacts [⟨_, hfault⟩, ⟨_, hretire⟩]

/-- Settles O9: the reset leaves a mix of the two memories, which are both canonical and agree outside the write
footprint. -/
theorem resetAbandonsExecutingCommand : Obligations.ResetAbandonsExecutingCommand := by
  intro s w i rest hready hs hhost hdecode
  let s' : State := { s with host := rest }
  obtain ⟨u, hexec⟩ := exists_exec_eq_next i s'.accept
  have hu : u.mem.wf := mem_wf_of_exec (s := s'.accept) hs hexec
  have hmix := Memory.read_mix_eq_or hs hu (Config.abandonedByteWritten s.draws)
  have hstep : step s = .next (s'.abandon w) := step_of_not_command hhost rfl
  rw [State.abandon_of_exec (s := s') hready hdecode hexec] at hstep
  refine ⟨_, u, hstep, hexec, rfl, fun a _ => hmix a.toNat, fun x hx => ?_⟩
  have hframe : u.mem.read x = s.mem.read x := by
    rw [← writeFootprint_of_regs_eq (s := s) (s' := s'.accept) rfl] at hx
    exact read_mem_of_exec (s := s'.accept) hs hexec hx
  exact (hmix x).elim id (·.trans hframe)

end Sys2Proof.Machine

/-! ## Encoding and decoding are inverse (30_encoding.md R101 to R121)

A word is the word of an instruction exactly when its fields are that instruction's, one lemma for each format. Read
from left to right such a lemma gives the fields the decoder looks at, from right to left the word back from its fields,
so both round trips rest on the same two lemmas. -/

namespace Sys2Proof

/-! ### The codes of the fields -/

theorem Reg.number_lt (r : Reg) : r.number < 15 := Reg.exists_number_eq_iff.1 ⟨r, rfl⟩

theorem Dim.code_le (d : Dim) : d.code ≤ 4 := by cases d <;> decide

theorem Tag.code_lt (t : Tag) : t.code < 4 := by cases t <;> decide

theorem Tag.ofCode_code (t : Tag) : Tag.ofCode t.code = t := by cases t <;> rfl

theorem Tag.code_ofCode {c : Nat} (hc : c < 4) : (Tag.ofCode c).code = c := by
  interval_cases c <;> rfl

/-! ### The word of each format by its fields -/

section Fields

variable {op mode : Nat} {w : Word}

/-- A word of format I is its four fields in place (30_encoding.md R102). -/
theorem encodeI_eq_iff (hop : op < 2 ^ 6) {rd : Reg} {imm : BitVec 16} :
    encodeI op rd imm = w ↔
      bits w 31 26 = op ∧ bits w 25 22 = rd.number ∧ bits w 21 16 = 0 ∧ bits w 15 0 = imm.toNat := by
  have hrd := rd.number_lt
  have himm : imm.toNat < 2 ^ 16 := imm.isLt
  have hw : w.toNat < 2 ^ 32 := w.isLt
  simp only [← BitVec.toNat_inj, encodeI, BitVec.toNat_ofNat, bits]
  omega

/-- A word of format K is its six fields in place (30_encoding.md R101). -/
theorem encodeK_eq_iff (hop : op < 2 ^ 6) (hmode : mode < 2 ^ 4) {bw bh : Dim} {tag : Tag} :
    encodeK op mode bw bh tag = w ↔
      bits w 31 26 = op ∧ bits w 25 22 = mode ∧ bits w 21 19 = bw.code ∧ bits w 18 16 = bh.code ∧
        bits w 15 14 = tag.code ∧ bits w 13 0 = 0 := by
  have hbw := bw.code_le
  have hbh := bh.code_le
  have htag := tag.code_lt
  have hw : w.toNat < 2 ^ 32 := w.isLt
  simp only [← BitVec.toNat_inj, encodeK, BitVec.toNat_ofNat, bits]
  omega

end Fields

/-! ### The modes of IPRED -/

section Modes

variable {mode : Nat} {mk : Dim → Tag → Instr}

theorem encode_of_ipredOfMode? (hmk : ipredOfMode? mode = some mk) (n : Dim) (tag : Tag) :
    encode (mk n tag) = encodeK 0x20 mode n n tag := by
  have hmode := lt_ten_of_ipredOfMode? hmk
  interval_cases mode <;> cases hmk <;> rfl

/-- Every mode has the constraint of its side alone (30_encoding.md R121). -/
theorem wellFormed_of_ipredOfMode? (hmk : ipredOfMode? mode = some mk) (n : Dim) (tag : Tag) :
    (mk n tag).wellFormed = ipredSideOk n := by
  have hmode := lt_ten_of_ipredOfMode? hmk
  interval_cases mode <;> cases hmk <;> rfl

end Modes

/-! ### Decoding the word of an instruction -/

theorem bits_encodeI_op {op : Nat} (hop : op < 2 ^ 6) (rd : Reg) (imm : BitVec 16) :
    bits (encodeI op rd imm) 31 26 = op := ((encodeI_eq_iff hop).1 rfl).1

theorem bits_encodeK_op {op mode : Nat} (hop : op < 2 ^ 6) (hmode : mode < 2 ^ 4) (bw bh : Dim) (tag : Tag) :
    bits (encodeK op mode bw bh tag) 31 26 = op := ((encodeK_eq_iff hop hmode).1 rfl).1

theorem decodeI_encodeI {op : Nat} (hop : op < 2 ^ 6) (mk : Reg → BitVec 16 → Instr) (rd : Reg) (imm : BitVec 16) :
    decodeI mk (encodeI op rd imm) = .ok (mk rd imm) := by
  obtain ⟨-, hrd, hzero, himm⟩ := (encodeI_eq_iff hop).1 (rfl : encodeI op rd imm = _)
  rw [Machine.decodeI_eq_ok mk hzero hrd, himm, BitVec.ofNat_toNat, BitVec.setWidth_eq]

theorem decodeSad_encodeK {op : Nat} (hop : op < 2 ^ 6) (mk : Dim → Dim → Tag → Instr) {bw bh : Dim} (tag : Tag)
    (hshape : sadShapeOk bw bh = true) : decodeSad mk (encodeK op 0 bw bh tag) = .ok (mk bw bh tag) := by
  obtain ⟨-, hmode, hbw, hbh, htag, hzero⟩ :=
    (encodeK_eq_iff hop (by decide)).1 (rfl : encodeK op 0 bw bh tag = _)
  exact decodeSad_eq_ok_iff.2 ⟨hzero, bw, bh, hbw.symm, hbh.symm, hmode, hshape, by rw [htag, Tag.ofCode_code]⟩

/-- The word of an intra command decodes to the command of its mode (30_encoding.md R107). -/
theorem decode_encode_of_ipredOfMode? {mode : Nat} {mk : Dim → Tag → Instr} (hmk : ipredOfMode? mode = some mk)
    {n : Dim} (tag : Tag) (hside : ipredSideOk n = true) : decode (encode (mk n tag)) = .ok (mk n tag) := by
  have hmode : mode < 2 ^ 4 := (lt_ten_of_ipredOfMode? hmk).trans (by decide)
  rw [encode_of_ipredOfMode? hmk]
  obtain ⟨hop, hkept, hbw, hbh, htag, hzero⟩ :=
    (encodeK_eq_iff (by decide) hmode).1 (rfl : encodeK 0x20 mode n n tag = _)
  have hrest := decodeIpred_eq_ok_iff.2
    ⟨hzero, n, mk, hbw.symm, hbh.symm, hkept.symm ▸ hmk, hside, congrArg (mk n) (by rw [htag, Tag.ofCode_code])⟩
  exact decode_eq_ok_iff.2 (.inr (.inr (.inr (.inr (.inr (.inr ⟨hop, hrest⟩))))))

/-- Settles O1: by the format of the instruction, whose fields are those of its word. -/
theorem decodeInvertsEncode : Obligations.DecodeInvertsEncode := by
  intro i hwf
  cases i with
  | nop => rfl
  | setlo rd imm =>
    exact decode_eq_ok_iff.2 (.inr (.inl ⟨bits_encodeI_op (by decide) rd imm, decodeI_encodeI (by decide) _ rd imm⟩))
  | sethi rd imm =>
    exact decode_eq_ok_iff.2
      (.inr (.inr (.inl ⟨bits_encodeI_op (by decide) rd imm, decodeI_encodeI (by decide) _ rd imm⟩)))
  | sad bw bh tag =>
    exact decode_eq_ok_iff.2 (.inr (.inr (.inr (.inl
      ⟨bits_encodeK_op (by decide) (by decide) bw bh tag, decodeSad_encodeK (by decide) _ tag hwf⟩))))
  | sadx4 bw bh tag =>
    exact decode_eq_ok_iff.2 (.inr (.inr (.inr (.inr (.inl
      ⟨bits_encodeK_op (by decide) (by decide) bw bh tag, decodeSad_encodeK (by decide) _ tag hwf⟩)))))
  | sadavg bw bh tag =>
    exact decode_eq_ok_iff.2 (.inr (.inr (.inr (.inr (.inr (.inl
      ⟨bits_encodeK_op (by decide) (by decide) bw bh tag, decodeSad_encodeK (by decide) _ tag hwf⟩))))))
  | ipredDc n tag => exact decode_encode_of_ipredOfMode? (mode := 0) rfl tag hwf
  | ipredDcLeft n tag => exact decode_encode_of_ipredOfMode? (mode := 1) rfl tag hwf
  | ipredDcTop n tag => exact decode_encode_of_ipredOfMode? (mode := 2) rfl tag hwf
  | ipredDc128 n tag => exact decode_encode_of_ipredOfMode? (mode := 3) rfl tag hwf
  | ipredV n tag => exact decode_encode_of_ipredOfMode? (mode := 4) rfl tag hwf
  | ipredH n tag => exact decode_encode_of_ipredOfMode? (mode := 5) rfl tag hwf
  | ipredTm n tag => exact decode_encode_of_ipredOfMode? (mode := 6) rfl tag hwf
  | ipredD45 n tag => exact decode_encode_of_ipredOfMode? (mode := 7) rfl tag hwf
  | ipredD117 n tag => exact decode_encode_of_ipredOfMode? (mode := 8) rfl tag hwf
  | ipredD135 n tag => exact decode_encode_of_ipredOfMode? (mode := 9) rfl tag hwf

/-! ### The word back from the fields that were decoded -/

section Back

variable {w : Word} {i : Instr} {op : Nat}

theorem encodeI_of_decodeI {mk : Reg → BitVec 16 → Instr} (hop : op < 2 ^ 6) (hbits : bits w 31 26 = op)
    (hdecode : decodeI mk w = .ok i) : ∃ rd imm, i = mk rd imm ∧ encodeI op rd imm = w := by
  obtain ⟨hzero, rd, hrd, rfl⟩ := decodeI_eq_ok_iff.1 hdecode
  have himm : bits w 15 0 < 2 ^ 16 := bits_lt w 15 0
  refine ⟨rd, _, rfl, (encodeI_eq_iff hop).2 ⟨hbits, hrd.symm, hzero, ?_⟩⟩
  rw [BitVec.toNat_ofNat, Nat.mod_eq_of_lt himm]

/-- The tag of a word has the code in its field (30_encoding.md R106). -/
theorem Tag.code_ofCode_bits (w : Word) : bits w 15 14 = (Tag.ofCode (bits w 15 14)).code :=
  (Tag.code_ofCode (bits_lt w 15 14)).symm

theorem encodeK_of_decodeSad {mk : Dim → Dim → Tag → Instr} (hop : op < 2 ^ 6) (hbits : bits w 31 26 = op)
    (hdecode : decodeSad mk w = .ok i) :
    ∃ bw bh tag, i = mk bw bh tag ∧ encodeK op 0 bw bh tag = w ∧ sadShapeOk bw bh = true := by
  obtain ⟨hzero, bw, bh, hbw, hbh, hmode, hshape, rfl⟩ := decodeSad_eq_ok_iff.1 hdecode
  exact ⟨bw, bh, _, rfl,
    (encodeK_eq_iff hop (by decide)).2 ⟨hbits, hmode, hbw.symm, hbh.symm, Tag.code_ofCode_bits w, hzero⟩, hshape⟩

theorem encode_of_decodeIpred (hbits : bits w 31 26 = 0x20) (hdecode : decodeIpred w = .ok i) :
    encode i = w ∧ i.wellFormed = true := by
  obtain ⟨hzero, n, mk, hbw, hbh, hmk, hside, rfl⟩ := decodeIpred_eq_ok_iff.1 hdecode
  have hmode : bits w 25 22 < 2 ^ 4 := bits_lt w 25 22
  rw [encode_of_ipredOfMode? hmk, wellFormed_of_ipredOfMode? hmk]
  exact ⟨(encodeK_eq_iff (by decide) hmode).2 ⟨hbits, rfl, hbw.symm, hbh.symm, Tag.code_ofCode_bits w, hzero⟩, hside⟩

end Back

/-- Settles O2: the decoder looks at every field, so the fields of what it answers give the word back. -/
theorem encodeInvertsDecode : Obligations.EncodeInvertsDecode := by
  intro w i hdecode
  rcases decode_eq_ok_iff.1 hdecode with ⟨hop, hrest⟩ | ⟨hop, hrest⟩ | ⟨hop, hrest⟩ | ⟨hop, hrest⟩ | ⟨hop, hrest⟩ |
    ⟨hop, hrest⟩ | ⟨hop, hrest⟩
  case inl =>
    obtain ⟨hzero, rfl⟩ := decodeZ_eq_ok_iff.1 hrest
    exact ⟨(Machine.eq_nopWord_of_bits hop hzero).symm, rfl⟩
  case inr.inl | inr.inr.inl =>
    obtain ⟨rd, imm, rfl, hword⟩ := encodeI_of_decodeI (by decide) hop hrest
    exact ⟨hword, rfl⟩
  case inr.inr.inr.inl | inr.inr.inr.inr.inl | inr.inr.inr.inr.inr.inl =>
    obtain ⟨bw, bh, tag, rfl, hword, hshape⟩ := encodeK_of_decodeSad (by decide) hop hrest
    exact ⟨hword, hshape⟩
  case inr.inr.inr.inr.inr.inr => exact encode_of_decodeIpred hop hrest

/-- Settles O4: the words of 30_encoding.md R120; a word that decodes has legal fields, which no listed illegal word
has. -/
theorem workedEncodingsDecode : Obligations.WorkedEncodingsDecode := by
  refine ⟨by decide, by decide, by decide, by decide, by decide, by decide, by decide, by decide, by decide, by decide,
    by decide, by decide, by decide, fun w hw i hdecode => ?_⟩
  have hlegal := (exists_decode_iff w).1 ⟨i, hdecode⟩
  simp only [List.mem_cons, List.not_mem_nil, or_false] at hw
  rcases hw with rfl | rfl | rfl | rfl | rfl | rfl | rfl | rfl | rfl | rfl <;>
    exact absurd hlegal (by unfold LegalFields; decide)

end Sys2Proof

/-! ## What every step keeps (10_state.md sections 4 and 7; 20_memory.md R75, R76)

Two facts are carried from a command to an action of the host and from there to a step: `SafeMemory`, which is about
memory and needs canonical memory before, and `State.CoreInv`, which is about the core alone. The invariant is both of
them, and the bytes that are not mapped are part of the first. -/

namespace Sys2Proof.Machine

/-! ### What no effect changes -/

/-- SADX4 changes memory alone. The new memory is named here, so that no later proof evaluates its stores. -/
theorem commandEffect_sadx4 (w h : Dim) (tag : Tag) (s : State) :
    commandEffect (.sadx4 w h tag) s = s.withMem (s.mem.storeAll 4 (sadx4Stores w h tag s)) := rfl

@[simp] theorem commandEffect_platform (i : Instr) (s : State) : (commandEffect i s).platform = s.platform := by
  cases i with
  | sadx4 w h tag => rw [commandEffect_sadx4, State.withMem_platform]
  | _ => rfl

@[simp] theorem commandEffect_finfo (i : Instr) (s : State) : (commandEffect i s).finfo = s.finfo := by
  cases i with
  | sadx4 w h tag => rw [commandEffect_sadx4, State.withMem_finfo]
  | _ => rfl

/-- Settles O19: a command takes the first fault of its check, or retires from an effect that writes neither CCNT nor
the record of a fault. -/
theorem everyCommandRetiresOrFaults : Obligations.EveryCommandRetiresOrFaults := by
  intro i s
  rcases exec_cases i s with ⟨cause, info, -, hcause, hfault⟩ | ⟨-, hretire⟩
  · exact ⟨_, hfault, .inr ⟨cause, info, hcause, rfl, State.raise_ready s cause info⟩⟩
  · exact ⟨_, hretire, .inl (by simp)⟩

/-! ### An accepted word -/

/-- Everything an accepted word can do: the instruction it decodes to, or ILLEGAL_CMD (30_encoding.md R116). -/
theorem runCommand_cases {w : Word} {s t : State} (hrun : runCommand w s = .next t) :
    (∃ i, exec i s.accept = .next t) ∨ t = s.accept.raise .illegalCmd w := by
  unfold runCommand at hrun
  split at hrun
  case h_1 i hdecode => exact .inl ⟨i, hrun⟩
  case h_2 => exact .inr (Host.Outcome.next.inj hrun).symm

/-- A reset during a command leaves a core that is reset, with the memory it had or a mix with the one the command would
have left (70_reset_and_hazards.md R281). -/
theorem State.abandon_cases (s : State) (w : Word) :
    s.abandon w = s.resetCore ∨ ∃ u pick draws, runCommand w s = .next u ∧
      s.abandon w = ({ s with mem := s.mem.mix u.mem pick, draws := draws } : State).resetCore := by
  unfold State.abandon
  split
  case isTrue =>
    split
    case h_1 u hrun => exact .inr ⟨u, _, _, hrun, rfl⟩
    case h_2 | h_3 => exact .inl rfl
  case isFalse => exact .inl rfl

/-! ### Memory -/

/-- From `s` to `t` the platform stays, memory is canonical afterwards, and no byte that is not mapped changes. -/
structure SafeMemory (s t : State) : Prop where
  platform : t.platform = s.platform
  wf : t.mem.wf
  unmapped : ∀ a : Nat, s.platform.mapped a = false → t.mem.read a = s.mem.read a

section Memory

variable {s t : State}

theorem SafeMemory.of_mem_eq (hs : s.mem.wf) (hplatform : t.platform = s.platform) (hmem : t.mem = s.mem) :
    SafeMemory s t where
  platform := hplatform
  wf := hmem ▸ hs
  unmapped := fun _ _ => by rw [hmem]

/-- The write footprint of a command that passes its checks is mapped, so a byte that is not mapped lies outside. -/
theorem exec_safeMemory {i : Instr} (hs : s.mem.wf) (hexec : exec i s = .next t) : SafeMemory s t := by
  rcases exec_cases i s with ⟨cause, info, -, -, hfault⟩ | ⟨hpass, hretire⟩
  · obtain rfl := Host.Outcome.next.inj (hfault.symm.trans hexec)
    exact .of_mem_eq hs rfl rfl
  · refine ⟨?_, mem_wf_of_exec hs hexec, fun a ha => read_mem_of_exec hs hexec (fun hmem => ?_)⟩
    · obtain rfl := Host.Outcome.next.inj (hretire.symm.trans hexec)
      exact commandEffect_platform i s
    · obtain ⟨-, -, hmapped⟩ := (Platform.accessible_iff _ _).1 (accessible_of_mem_writeFootprint hpass _ hmem)
      exact absurd (ha.symm.trans hmapped) Bool.false_ne_true

theorem runCommand_safeMemory {w : Word} (hs : s.mem.wf) (hrun : runCommand w s = .next t) : SafeMemory s t := by
  rcases runCommand_cases hrun with ⟨i, hexec⟩ | rfl
  · obtain ⟨hplatform, hwf, hunmapped⟩ := exec_safeMemory (s := s.accept) hs hexec
    exact ⟨hplatform, hwf, hunmapped⟩
  · exact .of_mem_eq hs rfl rfl

theorem abandon_safeMemory (hs : s.mem.wf) (w : Word) : SafeMemory s (s.abandon w) := by
  rcases s.abandon_cases w with habandon | ⟨u, pick, draws, hrun, habandon⟩
  · exact .of_mem_eq hs (by rw [habandon, State.resetCore_platform]) (by rw [habandon, State.resetCore_mem])
  · obtain ⟨-, hu, hunmapped⟩ := runCommand_safeMemory hs hrun
    rw [habandon]
    refine ⟨rfl, Memory.mix_wf _ _ _ hs hu, fun a ha => ?_⟩
    exact (Memory.read_mix_eq_or hs hu pick a).elim id (·.trans (hunmapped a ha))

/-- The host's own write is of a mapped byte, or the machine stops (log 10). -/
theorem writeMemory_safeMemory {x : Word} {b : Byte} (hs : s.mem.wf)
    (hstep : hostStep (.writeMemory x b) s = .next t) : SafeMemory s t := by
  simp only [hostStep] at hstep
  split at hstep
  case isTrue hmapped =>
    obtain rfl := Host.Outcome.next.inj hstep
    refine ⟨rfl, Memory.write_wf _ _ _ x.isLt hs, fun a ha => ?_⟩
    have hne : a ≠ x.toNat := by
      rintro rfl
      exact absurd (ha.symm.trans hmapped) Bool.false_ne_true
    rw [State.withMem_mem, Memory.read_write _ hs.1, if_neg hne]
  case isFalse => cases hstep

theorem hostStep_safeMemory {a : HostAction} (hs : s.mem.wf) (hstep : hostStep a s = .next t) : SafeMemory s t := by
  cases a with
  | command w => exact runCommand_safeMemory hs hstep
  | readPort sel | reset =>
    obtain rfl := Host.Outcome.next.inj hstep
    exact .of_mem_eq hs rfl rfl
  | resetDuring w =>
    obtain rfl := Host.Outcome.next.inj hstep
    exact abandon_safeMemory hs w
  | readMemory x =>
    simp only [hostStep] at hstep
    split at hstep
    case isTrue =>
      obtain rfl := Host.Outcome.next.inj hstep
      exact .of_mem_eq hs rfl rfl
    case isFalse => cases hstep
  | writeMemory x b => exact writeMemory_safeMemory hs hstep

theorem step_safeMemory (hs : s.mem.wf) (hstep : step s = .next t) : SafeMemory s t := by
  rcases step_cases hstep with ⟨a, rest, -, haction⟩ | ⟨-, rfl⟩
  · obtain ⟨hplatform, hwf, hunmapped⟩ := hostStep_safeMemory (s := { s with host := rest }) hs haction
    exact ⟨hplatform, hwf, hunmapped⟩
  · exact .of_mem_eq hs rfl rfl

end Memory

/-- Settles O18: every action of the host keeps the platform and the bytes that are not mapped. -/
theorem stepNeverTouchesUnmappedMemory : Obligations.StepNeverTouchesUnmappedMemory := by
  intro s t hs hstep
  obtain ⟨hplatform, -, hunmapped⟩ := step_safeMemory hs hstep
  exact ⟨hplatform, hunmapped⟩

/-! ### The core -/

/-- The part of the invariant that is about the core: BUSY is 0, and the record of a fault is consistent. -/
def State.CoreInv (s : State) : Prop := s.status.busy = false ∧ s.FaultRecordOk

section Core

variable {s t : State}

theorem State.resetCore_coreInv (s : State) : s.resetCore.CoreInv := ⟨rfl, fun _ => ⟨rfl, rfl⟩, nofun⟩

theorem State.raise_coreInv (s : State) {c : Cause} (hc : c ≠ .noFault) (info : Word) : (s.raise c info).CoreInv :=
  ⟨rfl, nofun, fun _ => hc⟩

theorem State.abandon_coreInv (s : State) (w : Word) : (s.abandon w).CoreInv := by
  rcases s.abandon_cases w with habandon | ⟨u, pick, draws, -, habandon⟩ <;> rw [habandon] <;>
    exact State.resetCore_coreInv _

theorem SameCore.coreInv (hsame : SameCore s t) (hs : s.CoreInv) : t.CoreInv := by
  obtain ⟨-, hstatus, hcause, hfinfo, -⟩ := hsame
  unfold State.CoreInv State.FaultRecordOk at hs ⊢
  rwa [hstatus, hcause, hfinfo]

/-- Retiring clears BUSY and keeps the record of a fault; taking a fault writes a whole new one. -/
theorem exec_coreInv {i : Instr} (hs : s.FaultRecordOk) (hexec : exec i s = .next t) : t.CoreInv := by
  rcases exec_cases i s with ⟨cause, info, -, hcause, hfault⟩ | ⟨-, hretire⟩
  · obtain rfl := Host.Outcome.next.inj (hfault.symm.trans hexec)
    exact s.raise_coreInv hcause info
  · obtain rfl := Host.Outcome.next.inj (hretire.symm.trans hexec)
    refine ⟨rfl, ?_⟩
    simpa [State.FaultRecordOk] using hs

theorem runCommand_coreInv {w : Word} (hs : s.FaultRecordOk) (hrun : runCommand w s = .next t) : t.CoreInv := by
  rcases runCommand_cases hrun with ⟨i, hexec⟩ | rfl
  · exact exec_coreInv (s := s.accept) hs hexec
  · exact s.accept.raise_coreInv (by decide) w

theorem step_coreInv (hs : s.CoreInv) (hstep : step s = .next t) : t.CoreInv := by
  rcases step_cases hstep with ⟨a, rest, -, haction⟩ | ⟨-, rfl⟩
  · rcases hostStep_cases haction with ⟨w, rfl, hrun⟩ | ⟨rfl, rfl⟩ | ⟨w, rfl, rfl⟩ | hsame
    · exact runCommand_coreInv (s := { s with host := rest }) hs.2 hrun
    · exact State.resetCore_coreInv _
    · exact State.abandon_coreInv _ w
    · exact hsame.coreInv hs
  · exact hs

end Core

/-- Settles O16: a step keeps what the invariant says of the core and what it says of memory. -/
theorem stepKeepsInvariant : Obligations.StepKeepsInvariant := by
  rintro s t ⟨hbusy, hrecord, hmem⟩ hstep
  obtain ⟨hbusy', hrecord'⟩ := step_coreInv ⟨hbusy, hrecord⟩ hstep
  exact ⟨hbusy', hrecord', (step_safeMemory hmem hstep).wf⟩

/-- Settles O17: the reset state is idle, records no fault, and holds no byte of memory. -/
theorem resetMeetsInvariant : Obligations.ResetMeetsInvariant :=
  ⟨rfl, ⟨fun _ => ⟨rfl, rfl⟩, nofun⟩, State.reset_mem_wf⟩

end Sys2Proof.Machine

/-! ## The registers a kernel command writes and reads (10_state.md R21, R24)

What a command does not read reaches neither its check nor its effect. The blocks of the SAD family are said to be the
same in two states, so that one fact covers a register that is written and a reference block taken for another; an intra
command reads a neighbour array only where its mode lists an index of it. -/

namespace Sys2Proof.Machine

/-! ### The registers written -/

section Written

variable {i : Instr} {r : Reg}

theorem sadEffect_regs (w h : Dim) (tag : Tag) (s : State) :
    (sadEffect w h tag s).regs = s.regs.set .sum ((sadEffect w h tag s).reg .sum) :=
  congrArg State.regs (sadEffect_retire w h tag s)

/-- A kernel command writes no operand register but SUM. -/
theorem commandEffect_reg_of_ne_sum (hkernel : i.isKernel = true) (hr : r ≠ .sum) (s : State) :
    (commandEffect i s).reg r = s.reg r := by
  cases i with
  | nop | setlo rd imm | sethi rd imm => cases hkernel
  | sad w h tag => rw [commandEffect, State.reg, sadEffect_regs, Regs.get_set_ne _ _ _ _ hr, State.reg]
  | sadx4 w h tag => rw [commandEffect_sadx4, State.reg_withMem]
  | sadavg w h tag => exact State.reg_writeReg_ne _ _ _ _ hr
  | _ => rfl

/-- A kernel command that does not return SUM writes no operand register. -/
theorem commandEffect_regs_of_not_writesSum (hkernel : i.isKernel = true) (hsum : i.writesSum = false) (s : State) :
    (commandEffect i s).regs = s.regs := by
  cases i with
  | nop | setlo rd imm | sethi rd imm => cases hkernel
  | sad w h tag | sadavg w h tag => cases hsum
  | sadx4 w h tag => rw [commandEffect_sadx4, State.withMem_regs]
  | _ => rfl

end Written

/-- Settles O20: a fault writes no operand register, and an effect at most SUM. -/
theorem kernelCommandsKeepOperandRegisters : Obligations.KernelCommandsKeepOperandRegisters := by
  intro i s t hkernel hexec
  rcases exec_cases i s with ⟨cause, info, -, -, hfault⟩ | ⟨-, hretire⟩
  · obtain rfl := Host.Outcome.next.inj (hfault.symm.trans hexec)
    exact ⟨fun r _ => State.reg_raise s cause info r, fun _ => State.reg_raise s cause info .sum⟩
  · obtain rfl := Host.Outcome.next.inj (hretire.symm.trans hexec)
    refine ⟨fun r hr => commandEffect_reg_of_ne_sum hkernel hr s, fun hsum => ?_⟩
    rw [State.reg_retire, State.reg, commandEffect_regs_of_not_writesSum hkernel hsum, State.reg]

/-! ### A register written over -/

theorem Regs.get_set (x : Regs) (r q : Reg) (v : Word) : (x.set r v).get q = if q = r then v else x.get q := by
  split
  case isTrue h => rw [h, Regs.get_set_self]
  case isFalse h => exact Regs.get_set_ne x r q v h

/-- What a register held before it was written over cannot be seen, whatever else was written in between. -/
theorem Regs.set_set_set (x : Regs) (r q : Reg) (v c u : Word) :
    ((x.set r v).set q c).set r u = (x.set q c).set r u := by
  refine Regs.ext_get _ _ (fun p => ?_)
  simp only [Regs.get_set]
  by_cases hp : p = r <;> simp [hp]

theorem Regs.set_set (x : Regs) (r : Reg) (v u : Word) : (x.set r v).set r u = x.set r u := by
  refine Regs.ext_get _ _ (fun p => ?_)
  simp only [Regs.get_set]
  by_cases hp : p = r <;> simp [hp]

theorem State.writeReg_writeReg (s : State) (r : Reg) (v u : Word) :
    (s.writeReg r v).writeReg r u = s.writeReg r u := by
  simp only [State.writeReg, Regs.set_set]

theorem State.writeReg_withMem (s : State) (r : Reg) (v : Word) (m : Memory) :
    (s.writeReg r v).withMem m = (s.withMem m).writeReg r v := rfl

theorem State.writeReg_writeReg_writeReg (s : State) (r q : Reg) (v c u : Word) :
    ((s.writeReg r v).writeReg q c).writeReg r u = (s.writeReg q c).writeReg r u := by
  simp only [State.writeReg, Regs.set_set_set]

/-! ### The blocks of the SAD family -/

/-- Reference block `k'` of `s'` is reference block `k` of `s`, and the source blocks are the same. -/
structure SameBlocks (s s' : State) (k k' : Nat) : Prop where
  mem : s'.mem = s.mem
  src : s'.reg .src = s.reg .src
  srcs : s'.reg .srcs = s.reg .srcs
  ref : s'.reg (refReg k') = s.reg (refReg k)
  refs : s'.reg .refs = s.reg .refs

namespace SameBlocks

variable {s s' : State} {k k' : Nat}

theorem pix_eq (hsame : SameBlocks s s' k k') : s'.pix = s.pix := by
  funext p stride x y ss
  rw [State.pix, State.smp, hsame.mem, ← State.smp, ← State.pix]

theorem rowSum_eq (hsame : SameBlocks s s' k k') : s'.rowSum k' = s.rowSum k := by
  funext w ss y
  simp only [State.rowSum, State.srcAt, State.refAt, hsame.pix_eq, hsame.src, hsame.srcs, hsame.ref, hsame.refs]

theorem exactSum_eq (hsame : SameBlocks s s' k k') : s'.exactSum k' = s.exactSum k := by
  funext w h ss
  simp only [State.exactSum, hsame.rowSum_eq]

theorem rowPartial_eq (hsame : SameBlocks s s' 0 0) : s'.rowPartial = s.rowPartial := by
  funext w h ss m
  simp only [State.rowPartial, hsame.rowSum_eq]

theorem srcBlk_eq (hsame : SameBlocks s s' k k') : s'.srcBlk = s.srcBlk := by
  funext w h tag
  simp only [State.srcBlk, hsame.src, hsame.srcs]

theorem refBlk_eq (hsame : SameBlocks s s' k k') : s'.refBlk k' = s.refBlk k := by
  funext w h tag
  simp only [State.refBlk, hsame.ref, hsame.refs]

/-- Writing a register that none of the two blocks is given by leaves both as they are. -/
theorem of_writeReg {r : Reg} (hr : r ∉ [.src, .srcs, refReg k, .refs]) (s : State) (v : Word) :
    SameBlocks s (s.writeReg r v) k k := by
  simp only [List.mem_cons, List.not_mem_nil, or_false, not_or] at hr
  obtain ⟨hsrc, hsrcs, href, hrefs⟩ := hr
  exact ⟨rfl, State.reg_writeReg_ne _ _ _ _ (Ne.symm hsrc), State.reg_writeReg_ne _ _ _ _ (Ne.symm hsrcs),
    State.reg_writeReg_ne _ _ _ _ (Ne.symm href), State.reg_writeReg_ne _ _ _ _ (Ne.symm hrefs)⟩

end SameBlocks

/-! ### A register that is not read -/

/-- What `r` held reaches neither the check of the command nor, once `r` itself is written over, its effect; and a sum
the command returns is the same, even where `r` is SUM. -/
structure Unread (i : Instr) (s : State) (r : Reg) (v : Word) : Prop where
  check : commandCheck i (s.writeReg r v) = commandCheck i s
  effect : ∀ u, (commandEffect i (s.writeReg r v)).writeReg r u = (commandEffect i s).writeReg r u
  sum : i.writesSum = true → (commandEffect i (s.writeReg r v)).reg .sum = (commandEffect i s).reg .sum

section Unread

variable {s : State} {r : Reg} {v : Word} {w h : Dim} {tag : Tag}

theorem Unread.of_commutes {i : Instr} (hsum : i.writesSum = false)
    (hcheck : commandCheck i (s.writeReg r v) = commandCheck i s)
    (heffect : commandEffect i (s.writeReg r v) = (commandEffect i s).writeReg r v) : Unread i s r v where
  check := hcheck
  effect := fun u => by rw [heffect, State.writeReg_writeReg]
  sum := fun hwrites => absurd (hsum.symm.trans hwrites) Bool.false_ne_true

/-- A register read by the command is not the one written. -/
theorem reg_writeReg_of_reads {i : Instr} (hr : r ∉ i.readsRegs) {q : Reg} (hq : q ∈ i.readsRegs) :
    (s.writeReg r v).reg q = s.reg q :=
  State.reg_writeReg_ne s r q v (ne_of_mem_of_not_mem hq hr)

/-- What SAD writes is the same where only a register it does not read was written before. -/
theorem sadEffect_writeReg (hsame : SameBlocks s (s.writeReg r v) 0 0)
    (hmaxsad : (s.writeReg r v).reg .maxsad = s.reg .maxsad) :
    sadEffect w h tag (s.writeReg r v) =
      { sadEffect w h tag s with regs := (s.regs.set r v).set .sum ((sadEffect w h tag s).reg .sum) } := by
  simp only [sadEffect, hsame.exactSum_eq, hsame.rowPartial_eq, hmaxsad, State.writeReg_platform,
    State.writeReg_draws]
  rfl

theorem sad_unread (hr : r ∉ (Instr.sad w h tag).readsRegs) : Unread (.sad w h tag) s r v := by
  have hsame : SameBlocks s (s.writeReg r v) 0 0 :=
    .of_writeReg (fun hmem => hr (List.mem_append_left [.maxsad] hmem)) s v
  have hsrc := reg_writeReg_of_reads (s := s) (v := v) hr (q := .src) (by simp [Instr.readsRegs])
  have href := reg_writeReg_of_reads (s := s) (v := v) hr (q := .ref0) (by simp [Instr.readsRegs])
  have hmaxsad := reg_writeReg_of_reads (s := s) (v := v) hr (q := .maxsad) (by simp [Instr.readsRegs])
  refine ⟨?_, fun u => ?_, fun _ => ?_⟩
  · simp only [commandCheck, sadCheck, samplePointer, hsame.srcBlk_eq, hsame.refBlk_eq, hsrc, href]
  · rw [commandEffect, commandEffect, sadEffect_writeReg hsame hmaxsad]
    simp only [State.writeReg, Regs.set_set_set, sadEffect_regs]
  · rw [commandEffect, sadEffect_writeReg hsame hmaxsad, State.reg, Regs.get_set_self, commandEffect]

theorem sadx4_unread (hr : r ∉ (Instr.sadx4 w h tag).readsRegs) : Unread (.sadx4 w h tag) s r v := by
  have hne : r ∉ [Reg.src, .srcs, .ref0, .ref1, .ref2, .ref3, .refs, .out] := hr
  have hsub : ∀ k, [.src, .srcs, refReg k, .refs] ⊆ [Reg.src, .srcs, .ref0, .ref1, .ref2, .ref3, .refs, .out] := by
    intro k
    rcases k with _ | _ | _ | k <;> simp [refReg]
  have hsame : ∀ k, SameBlocks s (s.writeReg r v) k k := fun k => .of_writeReg (fun hmem => hne (hsub k hmem)) s v
  have hreg : ∀ q ∈ [Reg.src, .ref0, .ref1, .ref2, .ref3, .out], (s.writeReg r v).reg q = s.reg q := fun q hq =>
    reg_writeReg_of_reads hr (by revert q; simp [Instr.readsRegs])
  simp only [List.forall_mem_cons] at hreg
  obtain ⟨hsrc, href0, href1, href2, href3, hout, -⟩ := hreg
  refine .of_commutes rfl ?_ ?_
  · simp only [commandCheck, sadx4Check, samplePointer, (hsame 0).srcBlk_eq, fun k => (hsame k).refBlk_eq,
      State.outBytes, hsrc, href0, href1, href2, href3, hout]
  · have hstores : sadx4Stores w h tag (s.writeReg r v) = sadx4Stores w h tag s := by
      simp only [sadx4Stores, fun k => (hsame k).exactSum_eq, hout]
    rw [commandEffect_sadx4, commandEffect_sadx4, hstores, State.writeReg_mem, State.writeReg_withMem]

theorem sadavg_unread (hr : r ∉ (Instr.sadavg w h tag).readsRegs) : Unread (.sadavg w h tag) s r v := by
  have hsame : SameBlocks s (s.writeReg r v) 0 0 :=
    .of_writeReg (fun hmem => hr (List.mem_append_left [.pred2] hmem)) s v
  have hpred2 := reg_writeReg_of_reads (s := s) (v := v) hr (q := .pred2) (by simp [Instr.readsRegs])
  have hsum : (s.writeReg r v).averagedSum = s.averagedSum := by
    funext w h ss
    simp only [State.averagedSum, State.srcAt, State.refAt, State.pred2At, hsame.pix_eq, hsame.src, hsame.srcs,
      hsame.ref, hsame.refs, hpred2]
  have href : (s.writeReg r v).reg .ref0 = s.reg .ref0 := hsame.ref
  refine ⟨?_, fun u => ?_, fun _ => ?_⟩
  · simp only [commandCheck, sadavgCheck, samplePointer, hsame.srcBlk_eq, hsame.refBlk_eq, State.pred2Blk, hsame.src,
      href, hpred2]
  · rw [commandEffect, hsum, State.writeReg_writeReg_writeReg, commandEffect]
  · rw [commandEffect, hsum, State.reg_writeReg_self, commandEffect, State.reg_writeReg_self]

end Unread

/-! ### A register an intra command does not read -/

/-- The register is none of those that give the destination block, and it points to a neighbour array only where the
mode does not read that array. -/
structure IntraUnread (nb : Neighbours) (r : Reg) : Prop where
  dst : r ≠ .dst
  dsts : r ≠ .dsts
  above : nb.above = [] ∨ r ≠ .above
  left : nb.left = [] ∨ r ≠ .left

section IntraUnread

variable {s : State} {r : Reg} {v : Word} {n : Dim} {tag : Tag} {nb : Neighbours} {pred : Predictor}

/-- Where the mode reads the array at all, its pointer `q` is not the register written. -/
theorem neighbour_writeReg {idx : List Int} {q : Reg} (hq : idx = [] ∨ r ≠ q) :
    neighbourPointer idx (s.writeReg r v) tag q = neighbourPointer idx s tag q ∧
      row ((s.writeReg r v).reg q) idx tag.ss = row (s.reg q) idx tag.ss ∧
      ∀ i ∈ idx, (s.writeReg r v).smp ((s.writeReg r v).reg q) i tag.ss = s.smp (s.reg q) i tag.ss := by
  rcases hq with rfl | hne
  · exact ⟨rfl, rfl, List.forall_mem_nil _⟩
  · have hreg := State.reg_writeReg_ne s r q v hne.symm
    simp only [neighbourPointer, samplePointer, hreg, State.smp_writeReg, implies_true, and_self]

theorem ipredCheck_writeReg (hr : IntraUnread nb r) : ipredCheck n tag nb (s.writeReg r v) = ipredCheck n tag nb s := by
  obtain ⟨hdst, hdsts, habove, hleft⟩ := hr
  have hdst' := State.reg_writeReg_ne s r .dst v hdst.symm
  have hdsts' := State.reg_writeReg_ne s r .dsts v hdsts.symm
  obtain ⟨hpa, hra, -⟩ := neighbour_writeReg (s := s) (v := v) (tag := tag) habove
  obtain ⟨hpl, hrl, -⟩ := neighbour_writeReg (s := s) (v := v) (tag := tag) hleft
  simp only [ipredCheck, State.dstBlk, samplePointer, hdst', hdsts', hpa, hra, hpl, hrl]

theorem ipredStores_writeReg (hpred : pred.ReadsOnly n.size nb) (hr : IntraUnread nb r) :
    ipredStores n tag pred (s.writeReg r v) = ipredStores n tag pred s := by
  obtain ⟨hdst, hdsts, habove, hleft⟩ := hr
  obtain ⟨-, -, hsa⟩ := neighbour_writeReg (s := s) (v := v) (tag := tag) habove
  obtain ⟨-, -, hsl⟩ := neighbour_writeReg (s := s) (v := v) (tag := tag) hleft
  refine List.flatMap_congr (fun y hy => List.map_congr_left (fun x hx => ?_))
  have hvalue := hpred _ _ _ _ hsa hsl y (List.mem_range.1 hy) x (List.mem_range.1 hx)
  have haddr : (s.writeReg r v).dstAddr tag.ss y x = s.dstAddr tag.ss y x := by
    rw [State.dstAddr, State.dstAddr, State.reg_writeReg_ne s r .dst v hdst.symm,
      State.reg_writeReg_ne s r .dsts v hdsts.symm]
  exact Prod.ext haddr hvalue

/-! Which registers a mode leaves unread, by the arrays it reads (10_state.md R22). -/

theorem IntraUnread.of_both (hr : r ∉ [.dst, .dsts, .above, .left]) : IntraUnread nb r := by
  simp only [List.mem_cons, List.not_mem_nil, or_false, not_or] at hr
  obtain ⟨hdst, hdsts, habove, hleft⟩ := hr
  exact ⟨hdst, hdsts, .inr habove, .inr hleft⟩

theorem IntraUnread.of_above {idx : List Int} (hr : r ∉ [.dst, .dsts, .above]) :
    IntraUnread { above := idx, left := [] } r := by
  simp only [List.mem_cons, List.not_mem_nil, or_false, not_or] at hr
  obtain ⟨hdst, hdsts, habove⟩ := hr
  exact ⟨hdst, hdsts, .inr habove, .inl rfl⟩

theorem IntraUnread.of_left {idx : List Int} (hr : r ∉ [.dst, .dsts, .left]) :
    IntraUnread { above := [], left := idx } r := by
  simp only [List.mem_cons, List.not_mem_nil, or_false, not_or] at hr
  obtain ⟨hdst, hdsts, hleft⟩ := hr
  exact ⟨hdst, hdsts, .inl rfl, .inr hleft⟩

theorem IntraUnread.of_none (hr : r ∉ [.dst, .dsts]) : IntraUnread { above := [], left := [] } r := by
  simp only [List.mem_cons, List.not_mem_nil, or_false, not_or] at hr
  obtain ⟨hdst, hdsts⟩ := hr
  exact ⟨hdst, hdsts, .inl rfl, .inl rfl⟩

theorem exists_intraForm_unread {i : Instr} (hside : i.destSide?.isSome = true) (hr : r ∉ i.readsRegs) :
    ∃ n tag nb pred, IntraForm i n tag nb pred ∧ IntraUnread nb r := by
  cases i with
  | ipredDc n tag | ipredTm n tag | ipredD117 n tag | ipredD135 n tag =>
    obtain ⟨n, tag, nb, pred, hform⟩ := exists_intraForm hside
    exact ⟨n, tag, nb, pred, hform, .of_both hr⟩
  | ipredDcTop n tag => exact ⟨n, tag, _, _, { readsOnly := predDcTop_readsOnly _ }, .of_above hr⟩
  | ipredV n tag => exact ⟨n, tag, _, _, { readsOnly := predV_readsOnly _ }, .of_above hr⟩
  | ipredD45 n tag => exact ⟨n, tag, _, _, { readsOnly := predD45_readsOnly _ }, .of_above hr⟩
  | ipredDcLeft n tag => exact ⟨n, tag, _, _, { readsOnly := predDcLeft_readsOnly _ }, .of_left hr⟩
  | ipredH n tag => exact ⟨n, tag, _, _, { readsOnly := predH_readsOnly _ }, .of_left hr⟩
  | ipredDc128 n tag => exact ⟨n, tag, _, _, { readsOnly := predDc128_readsOnly _ _ }, .of_none hr⟩
  | _ => cases hside

theorem intra_unread {i : Instr} (hside : i.destSide?.isSome = true) (hsum : i.writesSum = false)
    (hr : r ∉ i.readsRegs) : Unread i s r v := by
  obtain ⟨n, tag, nb, pred, hform, hunread⟩ := exists_intraForm_unread hside hr
  refine .of_commutes hsum ?_ ?_
  · rw [hform.check, hform.check, ipredCheck_writeReg hunread]
  · rw [hform.effect, hform.effect, ipredEffect, ipredEffect, ipredStores_writeReg hform.readsOnly hunread,
      State.writeReg_mem, State.writeReg_withMem]

theorem unread_of_not_mem_readsRegs {i : Instr} (hkernel : i.isKernel = true) (hr : r ∉ i.readsRegs) :
    Unread i s r v := by
  cases i with
  | nop | setlo rd imm | sethi rd imm => cases hkernel
  | sad w h tag => exact sad_unread hr
  | sadx4 w h tag => exact sadx4_unread hr
  | sadavg w h tag => exact sadavg_unread hr
  | _ => exact intra_unread rfl rfl hr

end IntraUnread

/-- Settles O22: both commands fault alike, since no check sees the register, or both retire from effects that agree
once it is written over. -/
theorem unusedRegistersHaveNoEffect : Obligations.UnusedRegistersHaveNoEffect := by
  intro i s r v hkernel hr
  obtain ⟨hcheck, heffect, hsum⟩ := unread_of_not_mem_readsRegs (s := s) (v := v) hkernel hr
  have hfirst : (commandCheck i (s.writeReg r v)).firstFault (s.writeReg r v).platform =
      (commandCheck i s).firstFault s.platform := by
    rw [hcheck, State.writeReg_platform]
  rcases exec_cases i s with ⟨cause, info, hfault, -, hexec⟩ | ⟨hpass, hexec⟩
  · refine ⟨_, _, hexec, exec_of_firstFault (hfirst.trans hfault), fun u => ?_, fun _ hretired => ?_⟩
    · exact congrArg (State.raise · cause info) (State.writeReg_writeReg s r v u)
    · rw [State.raise_ccnt] at hretired
      exact absurd hretired (by simp)
  · exact ⟨_, _, hexec, exec_of_firstFault_eq_none (hfirst.trans hpass),
      fun u => congrArg State.retire (heffect u), fun hwrites _ => hsum hwrites⟩

end Sys2Proof.Machine

/-! ## What the host offers, reads and writes (10_state.md R37 to R42)

The statements on one step: an offered word at a ready core, an offer at a core that is not ready, the host's own memory
accesses, and no action at all. -/

namespace Sys2Proof.Machine

/-! ### Offering a word -/

theorem runCommand_of_decode {w : Word} {i : Instr} (hdecode : decode w = .ok i) (s : State) :
    runCommand w s = exec i s.accept := by
  simp only [runCommand, hdecode]

/-- Settles O6: a ready core runs the word it is offered. -/
theorem stepRunsDecodedCommand : Obligations.StepRunsDecodedCommand :=
  fun _ _ _ _ hoffer hdecode => (step_of_offered hoffer).trans (runCommand_of_decode hdecode _)

theorem decodeTableWord_eq_some_iff {nbits w : Nat} {i : Instr} :
    decodeTableWord nbits w = some i ↔ decode (BitVec.ofNat 32 (w % 2 ^ nbits)) = .ok i := by
  unfold decodeTableWord
  split
  case h_1 j hdecode => rw [hdecode, Option.some.injEq, Except.ok.injEq]
  case h_2 reason hdecode => simp [hdecode]

/-- Settles O7: a word placed next is an offer of that word. -/
theorem placedWordRunsNext : Obligations.PlacedWordRunsNext := by
  intro s w i hready hword
  have hoffer : (s.withFetchWord 32 w).Offered (BitVec.ofNat 32 (w % 2 ^ 32)) s.host := ⟨hready, rfl⟩
  exact stepRunsDecodedCommand _ _ i _ hoffer (decodeTableWord_eq_some_iff.1 hword)

theorem dropWhile_isCommand_map (offers : List Word) (rest : List HostAction) :
    (offers.map HostAction.command ++ rest).dropWhile HostAction.isCommand = rest.dropWhile HostAction.isCommand :=
  List.dropWhile_append_of_pos (List.forall_mem_map.2 (fun _ _ => rfl))

/-- The actions that can still take place at a core that is not ready come after the offers (10_state.md R42). -/
theorem State.nextActions_of_not_ready {s : State} (hready : s.ready = false) {offers : List Word}
    {rest : List HostAction} (hhost : s.host = offers.map .command ++ rest) :
    s.nextActions = rest.dropWhile HostAction.isCommand := by
  simp only [State.nextActions, hready, hhost, dropWhile_isCommand_map, Bool.false_eq_true, if_false]

/-- Settles O13: the offers are dropped, and what is left decides. -/
theorem unacceptedOffersHaveNoStep : Obligations.UnacceptedOffersHaveNoStep := by
  refine ⟨fun s offers hready hoffers hhost => ?_, fun s offers a rest hready ha hhost => ?_⟩
  · have hnext : s.nextActions = [] := State.nextActions_of_not_ready hready (hhost.trans (List.append_nil _).symm)
    simp [step, hnext, hhost, hoffers]
  · have hnext : s.nextActions = a :: rest := by
      rw [State.nextActions_of_not_ready hready hhost, List.dropWhile_cons_of_neg (by simp [ha])]
    exact step_of_nextActions hnext

/-- Settles O15: with no action to come the step answers the state itself. -/
theorem idleCoreKeepsEverything : Obligations.IdleCoreKeepsEverything := by
  intro s hhost
  have hnext : s.nextActions = [] := by simp [State.nextActions, hhost]
  simp [step, hnext, hhost]

/-! ### The host's own accesses to memory -/

section HostMemory

variable {s : State} {a : Word} {b : Byte}

theorem hostStep_writeMemory_of_mapped (ha : s.platform.mapped a.toNat = true) :
    hostStep (.writeMemory a b) s = .next (s.withMem (s.mem.write a.toNat b)) := if_pos ha

theorem hostStep_readMemory_of_mapped (ha : s.platform.mapped a.toNat = true) :
    hostStep (.readMemory a) s = .next s := if_pos ha

theorem hostStep_writeMemory_of_unmapped (ha : s.platform.mapped a.toNat = false) :
    hostStep (.writeMemory a b) s = .fault (.hostAccessUnmapped a) := if_neg (by simp [ha])

theorem hostStep_readMemory_of_unmapped (ha : s.platform.mapped a.toNat = false) :
    hostStep (.readMemory a) s = .fault (.hostAccessUnmapped a) := if_neg (by simp [ha])

end HostMemory

/-- Settles O14: the host's next action is the access, which is of a mapped byte or stops the machine. -/
theorem hostMemoryAccess : Obligations.HostMemoryAccess := by
  refine ⟨fun s a b rest hs hhost ha => ?_, fun s a rest hhost ha => ⟨?_, ?_⟩, fun s a b rest hhost ha => ?_⟩
  · have hstep := (step_of_not_command hhost rfl).trans
      (hostStep_writeMemory_of_mapped (s := { s with host := rest }) (b := b) ha)
    exact ⟨_, hstep, rfl, fun x => Memory.read_write s.mem hs.1 a.toNat b x⟩
  · exact (step_of_not_command hhost rfl).trans (hostStep_readMemory_of_mapped (s := { s with host := rest }) ha)
  · rw [HostAction.returned, BitVec.ofNat_toNat]
  · rcases hhost with hhost | hhost
    · exact (step_of_not_command hhost rfl).trans
        (hostStep_writeMemory_of_unmapped (s := { s with host := rest }) ha)
    · exact (step_of_not_command hhost rfl).trans
        (hostStep_readMemory_of_unmapped (s := { s with host := rest }) ha)

/-! ### STATUS and CAUSE as words (10_state.md R27, R28) -/

/-- STATUS as a word is below 8, so the bits from 3 upward are 0. -/
theorem Status.getLsbD_word_of_ge (st : Status) {k : Nat} (hk : 3 ≤ k) : st.word.getLsbD k = false := by
  have hsum : st.busy.toNat + 2 * st.fault.toNat + 4 * st.gt.toNat < 2 ^ 3 := by
    have hbusy := st.busy.toNat_le
    have hfault := st.fault.toNat_le
    have hgt := st.gt.toNat_le
    omega
  rw [Status.word, BitVec.getLsbD_ofNat,
    Nat.testBit_lt_two_pow (hsum.trans_le (Nat.pow_le_pow_right (by decide) hk)), Bool.and_false]

theorem Status.getLsbD_word (st : Status) :
    st.word.getLsbD 0 = st.busy ∧ st.word.getLsbD 1 = st.fault ∧ st.word.getLsbD 2 = st.gt := by
  obtain ⟨busy, fault, gt⟩ := st
  revert busy fault gt
  decide

/-- Settles O11: each of the three bits in its place, none above, and the codes of the faults. -/
theorem statusAndCauseWords : Obligations.StatusAndCauseWords := by
  refine ⟨fun st => ?_, rfl, rfl, rfl, rfl, rfl⟩
  obtain ⟨hbusy, hfault, hgt⟩ := st.getLsbD_word
  exact ⟨hbusy, hfault, hgt, fun k => st.getLsbD_word_of_ge⟩

end Sys2Proof.Machine

/-! ## SETLO and SETHI together (44_control.md section 3; 30_encoding.md R119)

Two loads of one register in a row leave a value that depends on their order. The expansion of `li` is the first order,
without its second load where the upper half is 0. -/

namespace Sys2Proof.Machine

section Loads

variable {v : Word}

theorem execAll_cons {i : Instr} {s t : State} (hexec : exec i s = .next t) (is : List Instr) :
    execAll (i :: is) s = execAll is t := by
  simp only [execAll, hexec]

theorem execAll_setlo (rd : Reg) (lo : BitVec 16) (s : State) :
    ∃ t, execAll [.setlo rd lo] s = some t ∧ (t.reg rd).toNat = lo.toNat ∧ ∀ r, r ≠ rd → t.reg r = s.reg r := by
  obtain ⟨t, hexec, hvalue, hframe, -⟩ := frame_of_exec_writeReg (exec_setlo rd lo s) (toNat_setloValue lo)
  exact ⟨t, execAll_cons hexec [], hvalue, hframe⟩

/-- SETLO then SETHI puts the two halves together. -/
theorem execAll_setlo_sethi (rd : Reg) (lo hi : BitVec 16) (s : State) :
    ∃ t, execAll [.setlo rd lo, .sethi rd hi] s = some t ∧ (t.reg rd).toNat = hi.toNat * 65536 + lo.toNat ∧
      ∀ r, r ≠ rd → t.reg r = s.reg r := by
  have hlo : lo.toNat < 65536 := lo.isLt
  obtain ⟨t, ht, hvalue, hframe, -⟩ := frame_of_exec_writeReg (exec_setlo rd lo s) (toNat_setloValue lo)
  obtain ⟨u, hu, hvalue', hframe', -⟩ :=
    frame_of_exec_writeReg (exec_sethi rd hi t) (toNat_sethiValue hi (t.reg rd))
  refine ⟨u, (execAll_cons ht _).trans (execAll_cons hu []), ?_, fun r hr => (hframe' r hr).trans (hframe r hr)⟩
  rw [hvalue', hvalue, Nat.mod_eq_of_lt hlo]

/-- SETHI then SETLO leaves the lower half alone: SETLO clears the upper half. -/
theorem execAll_sethi_setlo (rd : Reg) (lo hi : BitVec 16) (s : State) :
    ∃ t, execAll [.sethi rd hi, .setlo rd lo] s = some t ∧ (t.reg rd).toNat = lo.toNat := by
  obtain ⟨t, ht, hvalue, -⟩ := execAll_setlo rd lo
    (s.writeReg rd (BitVec.ofNat 32 (hi.toNat * 2 ^ 16 + (s.reg rd).toNat % 2 ^ 16))).retire
  exact ⟨t, (execAll_cons (exec_sethi rd hi s) _).trans ht, hvalue⟩

/-- Settles O32: the value after each order. -/
theorem setloSethiOrderMatters : Obligations.SetloSethiOrderMatters := by
  intro rd lo hi s
  obtain ⟨t, ht, hvalue, -⟩ := execAll_setlo_sethi rd lo hi s
  exact ⟨⟨t, ht, hvalue⟩, execAll_sethi_setlo rd lo hi s⟩

/-! ### The expansion of `li` (30_encoding.md R119) -/

theorem lowHalf_eq (v : Word) : v.extractLsb' 0 16 = BitVec.ofNat 16 v.toNat := by
  rw [BitVec.extractLsb', Nat.shiftRight_zero]

theorem highHalf_eq (v : Word) : v.extractLsb' 16 16 = BitVec.ofNat 16 (v.toNat / 65536) := by
  rw [BitVec.extractLsb', Nat.shiftRight_eq_div_pow]

theorem toNat_lowHalf (v : Word) : (BitVec.ofNat 16 v.toNat).toNat = v.toNat % 65536 := BitVec.toNat_ofNat _ _

theorem toNat_highHalf (v : Word) : (BitVec.ofNat 16 (v.toNat / 65536)).toNat = v.toNat / 65536 := by
  have hv : v.toNat < 2 ^ 32 := v.isLt
  rw [BitVec.toNat_ofNat, Nat.mod_eq_of_lt (by omega)]

theorem highHalf_eq_zero_iff (v : Word) : BitVec.ofNat 16 (v.toNat / 65536) = 0 ↔ v.toNat / 65536 = 0 := by
  rw [← BitVec.toNat_inj, toNat_highHalf]
  rfl

theorem assembleLi_of_highHalf_eq_zero (rd : Reg) (hhigh : v.toNat / 65536 = 0) :
    assembleLi rd v = [.setlo rd (BitVec.ofNat 16 v.toNat)] := by
  simp only [assembleLi, lowHalf_eq, highHalf_eq, (highHalf_eq_zero_iff v).2 hhigh, if_true]

theorem assembleLi_of_highHalf_ne_zero (rd : Reg) (hhigh : v.toNat / 65536 ≠ 0) :
    assembleLi rd v =
      [.setlo rd (BitVec.ofNat 16 v.toNat), .sethi rd (BitVec.ofNat 16 (v.toNat / 65536))] := by
  simp only [assembleLi, lowHalf_eq, highHalf_eq, mt (highHalf_eq_zero_iff v).1 hhigh, if_false]

theorem execAll_assembleLi (rd : Reg) (v : Word) (s : State) :
    ∃ t, execAll (assembleLi rd v) s = some t ∧ t.reg rd = v ∧ ∀ r, r ≠ rd → t.reg r = s.reg r := by
  by_cases hhigh : v.toNat / 65536 = 0
  · obtain ⟨t, ht, hvalue, hframe⟩ := execAll_setlo rd (BitVec.ofNat 16 v.toNat) s
    rw [toNat_lowHalf] at hvalue
    exact ⟨t, by rw [assembleLi_of_highHalf_eq_zero rd hhigh, ht], BitVec.eq_of_toNat_eq (by omega), hframe⟩
  · obtain ⟨t, ht, hvalue, hframe⟩ :=
      execAll_setlo_sethi rd (BitVec.ofNat 16 v.toNat) (BitVec.ofNat 16 (v.toNat / 65536)) s
    rw [toNat_lowHalf, toNat_highHalf] at hvalue
    exact ⟨t, by rw [assembleLi_of_highHalf_ne_zero rd hhigh, ht], BitVec.eq_of_toNat_eq (by omega), hframe⟩

end Loads

/-- Settles O31: the two forms of the expansion, and what either leaves in the register. -/
theorem loadImmediateExpansion : Obligations.LoadImmediateExpansion :=
  fun rd v => ⟨assembleLi_of_highHalf_eq_zero rd, assembleLi_of_highHalf_ne_zero rd, execAll_assembleLi rd v⟩

end Sys2Proof.Machine

/-! ## Little-endian accesses (20_memory.md R61, R63, R64) -/

namespace Sys2Proof.Machine

/-- A read is the sum of its bytes by weight. -/
theorem Memory.readLE_eq_sum (m : Memory) (a n : Nat) :
    m.readLE (a : Int) n = ∑ k ∈ Finset.range n, (m.read (a + k)).toNat * 256 ^ k := by
  induction n generalizing a with
  | zero => rfl
  | succ n ih =>
    have hrest : m.readLE ((a : Int) + 1) n = ∑ k ∈ Finset.range n, (m.read (a + 1 + k)).toNat * 256 ^ k := by
      exact_mod_cast ih (a + 1)
    rw [Memory.readLE, hrest, Finset.sum_range_succ', Int.toNat_natCast, Finset.mul_sum, Nat.add_comm]
    refine congrArg₂ (· + ·) (Finset.sum_congr rfl (fun k _ => ?_)) (by rw [Nat.add_zero, pow_zero, Nat.mul_one])
    rw [Nat.add_right_comm, Nat.add_assoc, pow_succ]
    ring

/-- Settles O33: the sum of a read, and the two cases of a byte after a write. -/
theorem memoryAccessesAreLittleEndian : Obligations.MemoryAccessesAreLittleEndian := by
  refine ⟨Memory.readLE_eq_sum, fun m a n v hm hspace _ => ⟨fun k hk => ?_, fun x hx => ?_⟩⟩
  · rw [Memory.read_writeLE m a n v (by omega) (by omega) hm, if_pos (by omega), BitVec.toNat_ofNat,
      Int.toNat_natCast, Nat.add_sub_cancel_left]
  · rw [Memory.read_writeLE m a n v (by omega) (by omega) hm, if_neg (by omega)]

end Sys2Proof.Machine

/-! ## SAD at its extreme bounds, SADX4 and SADAVG (40_sad.md sections 2 to 4)

A SAD with the largest bound returns the exact sum under every policy, since no sum exceeds that bound. SADX4 stores the
four exact sums in four words that do not meet, so each word is read back; and the sum of one of its reference blocks is
the sum of a SAD given that block. -/

namespace Sys2Proof.Machine

/-! ### SAD at the extremes of its bound -/

section Extremes

variable {s : State} {w h : Dim} {tag : Tag}

theorem State.exactSum_eq_zero_iff (s : State) (k w h ss : Nat) :
    s.exactSum k w h ss = 0 ↔ ∀ y < h, ∀ x < w, s.srcAt ss x y = s.refAt k ss x y := by
  simp only [State.exactSum_eq_sum, State.rowSum_eq_sum, Finset.sum_eq_zero_iff, Finset.mem_range,
    Int.natAbs_eq_zero, sub_eq_zero, Nat.cast_inj]

theorem exec_sad_gt (hops : s.SrcRefOk 0 w h tag) : ∃ t, exec (.sad w h tag) s = .next t ∧
    t.status.gt = gtFlag (s.exactSum 0 w.size h.size tag.ss) (s.reg .maxsad) ∧
    (t.reg .sum).toNat = s.sadReturn w h tag :=
  ⟨_, exec_sad_of_srcRefOk hops, sadEffect_gt w h tag s, sadEffect_sum_toNat w h tag s⟩

/-- With the largest bound SAD returns the exact sum under every policy (40_sad.md R144, R145). -/
theorem exec_sad_of_largest_bound (hops : s.SrcRefOk 0 w h tag) (hbound : s.reg .maxsad = 0xFFFFFFFF) :
    ∃ t, exec (.sad w h tag) s = .next t ∧ t.status.gt = false ∧
      (t.reg .sum).toNat = s.exactSum 0 w.size h.size tag.ss := by
  have hle : s.exactSum 0 w.size h.size tag.ss ≤ (s.reg .maxsad).toNat := by
    rw [hbound]
    exact (s.exactSum_le_container 0 w h tag).trans (by decide)
  obtain ⟨t, hexec, hgt, hsum⟩ := exec_sad_gt hops
  exact ⟨t, hexec, hgt.trans (decide_eq_false (not_lt.2 hle)), hsum.trans (State.sadReturn_of_le hle)⟩

theorem exec_sad_of_zero_bound (hops : s.SrcRefOk 0 w h tag) (hbound : s.reg .maxsad = 0) :
    ∃ t, exec (.sad w h tag) s = .next t ∧
      (t.status.gt = false ↔ ∀ y < h.size, ∀ x < w.size, s.srcAt tag.ss x y = s.refAt 0 tag.ss x y) := by
  obtain ⟨t, hexec, hgt, -⟩ := exec_sad_gt hops
  have hzero : (s.reg .maxsad).toNat = 0 := by rw [hbound]; rfl
  refine ⟨t, hexec, ?_⟩
  rw [← State.exactSum_eq_zero_iff, hgt, ← Bool.not_eq_true, gtFlag_eq_true_iff, hzero, Nat.not_lt, Nat.le_zero]

end Extremes

/-- Settles O35: no sum exceeds the largest bound, and only the sum of equal blocks does not exceed 0. -/
theorem sadAtTheExtremesOfTheBound : Obligations.SadAtTheExtremesOfTheBound :=
  fun _ _ _ _ hops => ⟨exec_sad_of_largest_bound hops, exec_sad_of_zero_bound hops⟩

/-! ### SADX4 (40_sad.md R147, R148) -/

section Sadx4

variable {s : State} {w h : Dim} {tag : Tag}

/-- The four words of SADX4 follow one another. -/
theorem sadx4Stores_pairwise (w h : Dim) (tag : Tag) (s : State) :
    (sadx4Stores w h tag s).Pairwise (fun u v => u.1 + ((4 : Nat) : Int) ≤ v.1 ∨ v.1 + ((4 : Nat) : Int) ≤ u.1) := by
  rw [sadx4Stores, List.pairwise_map]
  refine List.pairwise_lt_range.imp (fun {k k'} hk => .inl ?_)
  dsimp only
  omega

theorem sadx4Stores_inRange (hpass : (sadx4Check w h tag s).firstFault s.platform = none) :
    StoresInRange 4 (sadx4Stores w h tag s) :=
  storesInRange_of_accessible (by decide) (fun a ha =>
    accessible_of_mem_writeFootprint (i := .sadx4 w h tag) hpass a ((mem_outBytes_iff_storedAt w h tag s a).2 ha))

theorem exec_sadx4_of_pass (hpass : (sadx4Check w h tag s).firstFault s.platform = none) :
    exec (.sadx4 w h tag) s = .next (s.withMem (s.mem.storeAll 4 (sadx4Stores w h tag s))).retire := by
  rw [exec_of_firstFault_eq_none (i := .sadx4 w h tag) hpass, commandEffect_sadx4]

/-- A new memory and retiring are all that a command of stores changes. -/
theorem retiredMemoryOnly_withMem (s : State) (m : Memory) : RetiredMemoryOnly s (s.withMem m).retire := rfl

/-- Each word of SADX4 is read back as the exact sum of its own reference block. -/
theorem readLE_sadx4_word (hs : s.mem.wf) (hpass : (sadx4Check w h tag s).firstFault s.platform = none) {k : Nat}
    (hk : k < 4) :
    (s.mem.storeAll 4 (sadx4Stores w h tag s)).readLE (((s.reg .out).toNat + 4 * k : Nat) : Int) 4 =
      s.exactSum k w.size h.size tag.ss := by
  have hvalue : s.exactSum k w.size h.size tag.ss < 256 ^ 4 :=
    lt_of_le_of_lt (s.exactSum_le_container k w h tag) (by norm_num)
  have hmem : ((((s.reg .out).toNat + 4 * k : Nat) : Int), s.exactSum k w.size h.size tag.ss) ∈
      sadx4Stores w h tag s :=
    List.mem_map.2 ⟨k, List.mem_range.2 hk, by push_cast; rfl⟩
  have hread := Memory.readLE_storeAll s.mem 4 _ (sadx4Stores_inRange hpass) hs (sadx4Stores_pairwise w h tag s) _ hmem
    hvalue
  simpa only using hread

/-- What SADX4 does, said once: it retires with the four sums in memory and every other byte as before. -/
theorem exec_sadx4_spec (hs : s.mem.wf) (hpass : (sadx4Check w h tag s).firstFault s.platform = none) :
    ∃ t, exec (.sadx4 w h tag) s = .next t ∧ RetiredMemoryOnly s t ∧
      (∀ k < 4, t.mem.readLE (((s.reg .out).toNat + 4 * k : Nat) : Int) 4 = s.exactSum k w.size h.size tag.ss) ∧
      (∀ a : Nat, (a < (s.reg .out).toNat ∨ (s.reg .out).toNat + 16 ≤ a) → t.mem.read a = s.mem.read a) := by
  have hexec := exec_sadx4_of_pass hpass
  refine ⟨_, hexec, retiredMemoryOnly_withMem s _, fun k hk => ?_, fun a ha => ?_⟩
  · rw [State.retire_mem, State.withMem_mem, readLE_sadx4_word hs hpass hk]
  · refine read_mem_of_exec hs hexec (fun hmem => ?_)
    obtain ⟨hlo, hhi⟩ := mem_idxFrom_iff_bounds.1 hmem
    omega

end Sadx4

/-- Settles O37: the sums SADX4 stores, written out. -/
theorem sadx4StoresFourSums : Obligations.Sadx4StoresFourSums := by
  intro w h tag s hs hops hout hacc
  simp only [← State.rowSum_eq_sum, ← State.exactSum_eq_sum s _ w.size h.size]
  exact exec_sadx4_spec hs (sadx4Check_pass w h tag s hops hout hacc)

/-! ### One sum of SADX4 and an unbounded SAD (40_sad.md R149) -/

/-- The state of a SAD with the largest bound and reference block `k` for its own. -/
def State.unboundedOn (s : State) (k : Nat) : State :=
  (s.writeReg .ref0 (s.reg (refReg k))).writeReg .maxsad 0xFFFFFFFF

section Unbounded

variable {s : State} {k : Nat} {w h : Dim} {tag : Tag}

theorem State.unboundedOn_sameBlocks (s : State) (k : Nat) : SameBlocks s (s.unboundedOn k) k 0 :=
  ⟨rfl, rfl, rfl, rfl, rfl⟩

theorem State.unboundedOn_srcRefOk (hops : s.SrcRefOk k w h tag) : (s.unboundedOn k).SrcRefOk 0 w h tag := hops

end Unbounded

/-- Settles O38: the word and the SUM are both the exact sum of the reference block. -/
theorem sadx4LaneEqualsUnboundedSad : Obligations.Sadx4LaneEqualsUnboundedSad := by
  intro w h tag s hs hops hout hacc k hk
  obtain ⟨t, ht, -, hword, -⟩ := exec_sadx4_spec hs (sadx4Check_pass w h tag s hops hout hacc)
  obtain ⟨u, hu, -, hsum⟩ :=
    exec_sad_of_largest_bound (State.unboundedOn_srcRefOk (hops k hk)) (State.reg_writeReg_self _ .maxsad _)
  refine ⟨t, u, ht, hu, ?_⟩
  rw [hword k hk, hsum, (s.unboundedOn_sameBlocks k).exactSum_eq]

/-! ### SADAVG (40_sad.md R150, R151) -/

section Sadavg

variable {s : State} {w h : Dim} {tag : Tag}

theorem State.averagedSum_eq_sum (s : State) (w h ss : Nat) :
    s.averagedSum w h ss = ∑ y ∈ Finset.range h, ∑ x ∈ Finset.range w,
      ((s.srcAt ss x y : Int) - (((s.refAt 0 ss x y + s.pred2At w ss x y + 1) / 2 : Nat) : Int)).natAbs := by
  simp only [State.averagedSum, sumTo_eq_sum, absdiff_eq_natAbs, avg2]

theorem avg2_self (a : Nat) : avg2 a a = a := by
  rw [avg2]
  omega

/-- The average of a reference block with itself is the block. -/
theorem State.averagedSum_eq_exactSum {w h ss : Nat}
    (hsame : ∀ y < h, ∀ x < w, s.pred2At w ss x y = s.refAt 0 ss x y) :
    s.averagedSum w h ss = s.exactSum 0 w h ss :=
  sumTo_congr _ _ _ (fun y hy => sumTo_congr _ _ _ (fun x hx => by rw [hsame y hy x hx, avg2_self]))

theorem exec_sadavg_of_operandsOk (hops : s.SrcRefOk 0 w h tag)
    (hpred2 : s.BlockOk tag (s.reg .pred2) w.size w.size h.size) :
    exec (.sadavg w h tag) s =
      .next (s.writeReg .sum (BitVec.ofNat 32 (s.averagedSum w.size h.size tag.ss))).retire :=
  exec_of_firstFault_eq_none (i := .sadavg w h tag) (sadavgCheck_pass w h tag s hops hpred2)

/-- SUM holds the sum without a reduction. -/
theorem toNat_averagedSum (s : State) (w h : Dim) (tag : Tag) :
    (BitVec.ofNat 32 (s.averagedSum w.size h.size tag.ss)).toNat = s.averagedSum w.size h.size tag.ss := by
  rw [BitVec.toNat_ofNat,
    Nat.mod_eq_of_lt (lt_of_le_of_lt (s.averagedSum_le_container w h tag) (by norm_num))]

end Sadavg

/-- Settles O39: SADAVG writes its sum to SUM and retires. -/
theorem sadavgSumsAgainstRoundedAverage : Obligations.SadavgSumsAgainstRoundedAverage := by
  intro w h tag s hops hpred2
  have hexec := exec_sadavg_of_operandsOk hops hpred2
  refine ⟨_, hexec, ?_, ?_, fun hsame => ?_⟩
  · rw [State.reg_retire, State.reg_writeReg_self]
    rfl
  · rw [State.reg_retire, State.reg_writeReg_self, toNat_averagedSum, State.averagedSum_eq_sum]
  · rw [State.reg_retire, State.reg_writeReg_self, toNat_averagedSum, State.averagedSum_eq_exactSum hsame]

end Sys2Proof.Machine

/-! ## The intra predictors (41_intra_dc.md, 42_intra_directional.md, 43_intra_v_h_tm.md)

Every mode shares the frame of IPRED, which stores whatever its predictor gives. So each statement is an equation of the
predictor, and the bound that lets a predicted value be read back: a mean and a copy stay in the range of their
neighbours, and the other two modes have a constant and a saturated value. -/

namespace Sys2Proof

theorem Tag.maxv_cast (t : Tag) : (t.maxv : Int) = 2 ^ t.bd - 1 := by cases t <;> rfl

/-- The largest sample value fits in a sample (00_scope.md R6). -/
theorem Tag.maxv_lt (t : Tag) : t.maxv < 256 ^ t.ss := by cases t <;> decide

/-- The mid-range constant is half of one more than the largest sample value (00_scope.md R6). -/
theorem Tag.maxv_add_one (t : Tag) : t.maxv + 1 = 2 * 2 ^ (t.bd - 1) := by cases t <;> rfl

end Sys2Proof

namespace Sys2Proof.Machine

/-! ### Means -/

theorem avg2_const (v : Nat) : avg2 v v = v := by
  rw [avg2]
  omega

theorem avg3_const (v : Nat) : avg3 v v v = v := by
  rw [avg3]
  omega

theorem avg3_comm (a b c : Nat) : avg3 a b c = avg3 c b a := by
  rw [avg3, avg3]
  omega

theorem avg3_le {a b c m : Nat} (ha : a ≤ m) (hb : b ≤ m) (hc : c ≤ m) : avg3 a b c ≤ m := by
  rw [avg3]
  omega

/-- The mean of `n` samples of at most `m`, a half rounded up, is at most `m`. -/
theorem rmean_le {t n m : Nat} (hn : 0 < n) (ht : t ≤ n * m) : rmean t n ≤ m := by
  have hlt : t + n / 2 < n * (m + 1) := by
    rw [Nat.mul_add, Nat.mul_one]
    exact Nat.add_lt_add_of_le_of_lt ht (Nat.div_lt_self hn (by decide))
  exact Nat.le_of_lt_succ (Nat.div_lt_of_lt_mul hlt)

theorem sumSamples_eq_sum (n : Nat) (a : Int → Nat) : sumSamples n a = ∑ i ∈ Finset.range n, a (i : Int) :=
  sumTo_eq_sum _ _

theorem sumSamples_le {n m : Nat} {a : Int → Nat} (ha : ∀ i, a i ≤ m) : sumSamples n a ≤ n * m :=
  sumTo_le _ _ _ (fun k _ => ha k)

theorem sumSamples_const (n v : Nat) : sumSamples n (fun _ => v) = n * v := by
  simp [sumSamples_eq_sum]

/-! ### The edge array (42_intra_directional.md R191) -/

section Edge

variable {a l : Int → Nat} {i : Int}

theorem edge_of_ge (hi : -1 ≤ i) : edge a l i = a i := if_pos hi

theorem edge_of_lt {j : Int} (hj : 0 ≤ j) (hi : i = -2 - j) : edge a l i = l j := by
  rw [edge, if_neg (by omega)]
  exact congrArg l (by omega)

theorem edge_const (v : Nat) (i : Int) : edge (fun _ => v) (fun _ => v) i = v := ite_self _

theorem edge_le {m : Nat} (ha : ∀ i, a i ≤ m) (hl : ∀ j, l j ≤ m) (i : Int) : edge a l i ≤ m := by
  rw [edge]
  split
  exacts [ha _, hl _]

end Edge

/-! ### D117 by its branches (42_intra_directional.md R194) -/

section D117

variable (a l : Int → Nat) {r c : Nat}

theorem predD117_of_even (hc : r / 2 ≤ c) (hr : r % 2 = 0) :
    predD117 a l r c = avg2 (edge a l ((c : Int) - ((r / 2 : Nat) : Int) - 1))
      (edge a l ((c : Int) - ((r / 2 : Nat) : Int))) := by
  simp only [predD117, if_pos hc, if_pos hr]

theorem predD117_of_odd (hc : r / 2 ≤ c) (hr : r % 2 ≠ 0) :
    predD117 a l r c = avg3 (edge a l ((c : Int) - ((r / 2 : Nat) : Int) - 2))
      (edge a l ((c : Int) - ((r / 2 : Nat) : Int) - 1)) (edge a l ((c : Int) - ((r / 2 : Nat) : Int))) := by
  simp only [predD117, if_pos hc, if_neg hr]

theorem predD117_of_below (hc : c < r / 2) :
    predD117 a l r c = avg3 (edge a l (-((r : Int) - 2 * (c : Int)) + 1)) (edge a l (-((r : Int) - 2 * (c : Int))))
      (edge a l (-((r : Int) - 2 * (c : Int)) - 1)) := by
  simp only [predD117, if_neg (not_le.2 hc)]

theorem predD117_row_zero (c : Nat) : predD117 a l 0 c = avg2 (a ((c : Int) - 1)) (a (c : Int)) := by
  rw [predD117_of_even a l c.zero_le rfl, Nat.zero_div, Nat.cast_zero, sub_zero, edge_of_ge (by omega),
    edge_of_ge (by omega)]

theorem predD117_row_one_zero : predD117 a l 1 0 = avg3 (l 0) (a (-1)) (a 0) := by
  rw [predD117_of_odd a l (Nat.zero_le 0) (by decide), edge_of_lt (j := 0) le_rfl (by norm_num),
    edge_of_ge (by norm_num), edge_of_ge (by norm_num)]
  rfl

theorem predD117_row_one {c : Nat} (hc : 1 ≤ c) :
    predD117 a l 1 c = avg3 (a ((c : Int) - 2)) (a ((c : Int) - 1)) (a (c : Int)) := by
  have hzero : ((1 / 2 : Nat) : Int) = 0 := rfl
  rw [predD117_of_odd a l c.zero_le (by decide), hzero, sub_zero, edge_of_ge (by omega), edge_of_ge (by omega),
    edge_of_ge (by omega)]

theorem predD117_column_zero_two : predD117 a l 2 0 = avg3 (a (-1)) (l 0) (l 1) := by
  rw [predD117_of_below a l (by decide), edge_of_ge (by norm_num), edge_of_lt (j := 0) le_rfl (by norm_num),
    edge_of_lt (j := 1) (by decide) (by norm_num)]
  rfl

theorem predD117_column_zero {r : Nat} (hr : 3 ≤ r) :
    predD117 a l r 0 = avg3 (l ((r : Int) - 3)) (l ((r : Int) - 2)) (l ((r : Int) - 1)) := by
  rw [predD117_of_below a l (by omega), edge_of_lt (j := (r : Int) - 3) (by omega) (by omega),
    edge_of_lt (j := (r : Int) - 2) (by omega) (by omega), edge_of_lt (j := (r : Int) - 1) (by omega) (by omega)]

/-- Two rows down and one column right the same neighbours are averaged (42_intra_directional.md R195). -/
theorem predD117_shift (r c : Nat) : predD117 a l (r + 2) (c + 1) = predD117 a l r c := by
  have hhalf : (r + 2) / 2 = r / 2 + 1 := Nat.add_div_right r (by decide)
  have hupper : ((c + 1 : Nat) : Int) - ((r / 2 + 1 : Nat) : Int) = (c : Int) - ((r / 2 : Nat) : Int) := by omega
  have hlower : ((r + 2 : Nat) : Int) - 2 * ((c + 1 : Nat) : Int) = (r : Int) - 2 * (c : Int) := by omega
  simp only [predD117, hhalf, Nat.add_le_add_iff_right, Nat.add_mod_right, hupper, hlower]

end D117

/-! ### D135 (42_intra_directional.md R196) -/

section D135

variable (a l : Int → Nat)

theorem predD135_zero_zero : predD135 a l 0 0 = avg3 (l 0) (a (-1)) (a 0) := by
  simp only [predD135]
  rw [edge_of_lt (j := 0) le_rfl (by norm_num), edge_of_ge (by norm_num), edge_of_ge (by norm_num)]
  rfl

theorem predD135_row_zero {c : Nat} (hc : 1 ≤ c) :
    predD135 a l 0 c = avg3 (a ((c : Int) - 2)) (a ((c : Int) - 1)) (a (c : Int)) := by
  simp only [predD135, Nat.cast_zero, sub_zero, sub_add_cancel, sub_sub, Int.reduceAdd]
  rw [edge_of_ge (by omega), edge_of_ge (by omega), edge_of_ge (by omega)]

theorem predD135_column_zero_one : predD135 a l 1 0 = avg3 (a (-1)) (l 0) (l 1) := by
  simp only [predD135]
  rw [edge_of_lt (j := 1) (by decide) (by norm_num), edge_of_lt (j := 0) le_rfl (by norm_num),
    edge_of_ge (by norm_num), avg3_comm]
  rfl

theorem predD135_column_zero {r : Nat} (hr : 2 ≤ r) :
    predD135 a l r 0 = avg3 (l ((r : Int) - 2)) (l ((r : Int) - 1)) (l (r : Int)) := by
  simp only [predD135]
  rw [edge_of_lt (j := (r : Int)) (by omega) (by omega), edge_of_lt (j := (r : Int) - 1) (by omega) (by omega),
    edge_of_lt (j := (r : Int) - 2) (by omega) (by omega), avg3_comm]

/-- Along the diagonal the same neighbours are averaged (42_intra_directional.md R197). -/
theorem predD135_shift (r c : Nat) : predD135 a l (r + 1) (c + 1) = predD135 a l r c := by
  have hdiagonal : ((c + 1 : Nat) : Int) - ((r + 1 : Nat) : Int) = (c : Int) - (r : Int) := by omega
  simp only [predD135, hdiagonal]

end D135

/-! ### The other predictors as the statements write them -/

theorem predDc_eq (n : Nat) (a l : Int → Nat) (r c : Nat) :
    predDc n a l r c =
      (∑ i ∈ Finset.range n, a (i : Int) + ∑ j ∈ Finset.range n, l (j : Int) + n) / (2 * n) := by
  rw [predDc, rmean, sumSamples_eq_sum, sumSamples_eq_sum, Nat.mul_div_cancel_left n (by decide)]

/-- D45 averages within its extent, which only the last pixel of the block leaves
(42_intra_directional.md R192, R193). -/
theorem predD45_eq {n r c : Nat} (a l : Int → Nat) (hr : r < n) (hc : c < n) :
    predD45 n a l r c =
      if r = n - 1 ∧ c = n - 1 then a (2 * (n : Int) - 1)
      else (a ((r : Int) + (c : Int)) + 2 * a ((r : Int) + (c : Int) + 1) + a ((r : Int) + (c : Int) + 2) + 2) / 4 := by
  by_cases hlast : r = n - 1 ∧ c = n - 1
  · have hoff : ¬ r + c + 2 < Config.d45AboveExtent n := by rw [Config.d45AboveExtent]; omega
    rw [predD45, if_neg hoff, if_pos hlast, Config.d45AboveExtent]
    exact congrArg a (by omega)
  · have hin : r + c + 2 < Config.d45AboveExtent n := by rw [Config.d45AboveExtent]; omega
    rw [predD45, if_pos hin, if_neg hlast, avg3]
    push_cast
    rfl

theorem clamp_eq {v lo hi : Int} (hle : lo ≤ hi) : clamp v lo hi = max lo (min hi v) := by
  unfold clamp
  split
  · omega
  · split <;> omega

theorem predTm_eq (t : Tag) (a l : Int → Nat) (r c : Nat) :
    predTm t.maxv a l r c =
      (max 0 (min ((2 : Int) ^ t.bd - 1) ((a (c : Int) : Int) + (l (r : Int) : Int) - (a (-1) : Int)))).toNat := by
  rw [predTm, clamp_eq (Int.natCast_nonneg _), Tag.maxv_cast]

theorem predTm_le (m : Nat) (a l : Int → Nat) (r c : Nat) : predTm m a l r c ≤ m := by
  rw [predTm, clamp_eq (Int.natCast_nonneg _)]
  omega

/-! ### The range of a predicted value -/

/-- Neighbours of at most `m` give a value of at most `m`, for every `m`. -/
def Predictor.StaysInRange (pred : Predictor) : Prop :=
  ∀ (m : Nat) (a l : Int → Nat), (∀ i, a i ≤ m) → (∀ j, l j ≤ m) → ∀ r c, pred a l r c ≤ m

section Range

variable {n : Nat}

theorem predDc_staysInRange (hn : 0 < n) : (predDc n).StaysInRange := by
  intro m a l ha hl r c
  refine rmean_le (by omega) ?_
  rw [Nat.two_mul, Nat.add_mul]
  exact Nat.add_le_add (sumSamples_le ha) (sumSamples_le hl)

theorem predDcLeft_staysInRange (hn : 0 < n) : (predDcLeft n).StaysInRange :=
  fun _ _ _ _ hl _ _ => rmean_le hn (sumSamples_le hl)

theorem predDcTop_staysInRange (hn : 0 < n) : (predDcTop n).StaysInRange :=
  fun _ _ _ ha _ _ _ => rmean_le hn (sumSamples_le ha)

theorem predV_staysInRange : predV.StaysInRange := fun _ _ _ ha _ _ _ => ha _

theorem predH_staysInRange : predH.StaysInRange := fun _ _ _ _ hl _ _ => hl _

theorem predD45_staysInRange : (predD45 n).StaysInRange := by
  intro m a l ha hl r c
  rw [predD45]
  split
  exacts [avg3_le (ha _) (ha _) (ha _), ha _]

theorem predD117_staysInRange : predD117.StaysInRange := by
  intro m a l ha hl r c
  have hedge := edge_le ha hl
  rcases le_or_gt (r / 2) c with hc | hc
  · rcases Nat.mod_two_eq_zero_or_one r with hr | hr
    · rw [predD117_of_even a l hc hr]
      exact avg2_le (hedge _) (hedge _)
    · rw [predD117_of_odd a l hc (by omega)]
      exact avg3_le (hedge _) (hedge _) (hedge _)
  · rw [predD117_of_below a l hc]
    exact avg3_le (hedge _) (hedge _) (hedge _)

theorem predD135_staysInRange : predD135.StaysInRange :=
  fun _ _ _ ha hl _ _ => avg3_le (edge_le ha hl _) (edge_le ha hl _) (edge_le ha hl _)

/-- From samples of memory such a predictor gives a value that fits in a sample. -/
theorem Predictor.StaysInRange.lt {pred : Predictor} (hpred : pred.StaysInRange) (s : State) (ss r c : Nat) :
    pred (s.aboveAt ss) (s.leftAt ss) r c < 256 ^ ss :=
  Nat.lt_of_le_pred (by positivity) (hpred _ _ _ (fun _ => Nat.le_pred_of_lt (s.smp_lt _ _ _))
    (fun _ => Nat.le_pred_of_lt (s.smp_lt _ _ _)) r c)

end Range

/-! ### The command of each mode -/

section Modes

variable {n : Dim} {tag : Tag} {s : State}

/-- An intra command with its operands in order, with the predicted values written as `value`. -/
theorem execIpred_predicts {nb : Neighbours} {pred : Predictor} {value : Nat → Nat → Nat} (hm : s.mem.wf)
    (hdest : s.DestOk n tag) (habove : s.NeighbourOk tag .above nb.above) (hleft : s.NeighbourOk tag .left nb.left)
    (hlt : ∀ r c, pred (s.aboveAt tag.ss) (s.leftAt tag.ss) r c < 256 ^ tag.ss)
    (hvalue : ∀ r < n.size, ∀ c < n.size, pred (s.aboveAt tag.ss) (s.leftAt tag.ss) r c = value r c) :
    ∃ t, execIpred n tag nb pred s = .next t ∧ PredictedBlock s t n tag value := by
  obtain ⟨t, hexec, hretired, hblock, hframe⟩ :=
    execIpred_of_pass n tag nb pred s hm hdest habove hleft (fun r _ c _ => hlt r c)
  exact ⟨t, hexec, hretired, fun r hr c hc => (hblock r hr c hc).trans (hvalue r hr c hc), hframe⟩

end Modes

/-- Settles O40: DC by the frame of IPRED and its mean written out. -/
theorem ipredDcFillsWithMeanOfBoth : Obligations.IpredDcFillsWithMeanOfBoth :=
  fun n tag s hm hdest habove hleft => execIpred_predicts hm hdest (neighbourOk_of_rowOk s tag _ _ _ habove)
    (neighbourOk_of_rowOk s tag _ _ _ hleft) ((predDc_staysInRange n.size_pos).lt s tag.ss)
    (fun r _ c _ => predDc_eq n.size _ _ r c)

/-- Settles O41: DC_LEFT reads no `above` sample. -/
theorem ipredDcLeftFillsWithMeanOfLeft : Obligations.IpredDcLeftFillsWithMeanOfLeft :=
  fun n tag s hm hdest hleft => execIpred_predicts hm hdest (.inl rfl) (neighbourOk_of_rowOk s tag _ _ _ hleft)
    ((predDcLeft_staysInRange n.size_pos).lt s tag.ss) (fun _ _ _ _ => by rw [predDcLeft, rmean, sumSamples_eq_sum])

/-- Settles O42: DC_TOP reads no `left` sample. -/
theorem ipredDcTopFillsWithMeanOfAbove : Obligations.IpredDcTopFillsWithMeanOfAbove :=
  fun n tag s hm hdest habove => execIpred_predicts hm hdest (neighbourOk_of_rowOk s tag _ _ _ habove) (.inl rfl)
    ((predDcTop_staysInRange n.size_pos).lt s tag.ss) (fun _ _ _ _ => by rw [predDcTop, rmean, sumSamples_eq_sum])

/-- Settles O43: DC_128 reads no neighbour, and its constant fits in a sample of each tag. -/
theorem ipredDc128FillsWithMidRange : Obligations.IpredDc128FillsWithMidRange := by
  intro n tag s hm hdest
  refine execIpred_predicts hm hdest (.inl rfl) (.inl rfl) (fun r c => ?_) (fun r _ c _ => ?_)
  · rw [predDc128]
    cases tag <;> decide
  · cases tag <;> rfl

/-- Settles O44: V reads no `left` sample. -/
theorem ipredVCopiesAbove : Obligations.IpredVCopiesAbove :=
  fun _ tag s hm hdest habove => execIpred_predicts hm hdest (neighbourOk_of_rowOk s tag _ _ _ habove) (.inl rfl)
    (predV_staysInRange.lt s tag.ss) (fun _ _ _ _ => rfl)

/-- Settles O45: H reads no `above` sample. -/
theorem ipredHCopiesLeft : Obligations.IpredHCopiesLeft :=
  fun _ tag s hm hdest hleft => execIpred_predicts hm hdest (.inl rfl) (neighbourOk_of_rowOk s tag _ _ _ hleft)
    (predH_staysInRange.lt s tag.ss) (fun _ _ _ _ => rfl)

/-- Settles O46: the clamp of TM written out; what it gives is at most the largest sample value. -/
theorem ipredTmExtrapolatesAndSaturates : Obligations.IpredTmExtrapolatesAndSaturates :=
  fun _ tag s hm hdest habove hleft => execIpred_predicts hm hdest (neighbourOk_of_rowOk s tag _ _ _ habove)
    (neighbourOk_of_rowOk s tag _ _ _ hleft) (fun r c => (predTm_le tag.maxv _ _ r c).trans_lt tag.maxv_lt)
    (fun r _ c _ => predTm_eq tag _ _ r c)

/-- Settles O47: D45 reads no `left` sample, and only its last pixel leaves the extent of `above`. -/
theorem ipredD45ProjectsAbove : Obligations.IpredD45ProjectsAbove :=
  fun _ tag s hm hdest habove => execIpred_predicts hm hdest (neighbourOk_of_rowOk s tag _ _ _ habove) (.inl rfl)
    (predD45_staysInRange.lt s tag.ss) (fun _ hr _ hc => predD45_eq _ _ hr hc)

/-- Settles O48: the first two rows and the first column of D117, and its shift. -/
theorem ipredD117Stepwise : Obligations.IpredD117Stepwise := by
  intro n tag s hm hdest habove hleft
  obtain ⟨t, hexec, hblock⟩ := execIpred_predicts (nb := readsD117 n.size) hm hdest
    (neighbourOk_of_rowOk s tag _ _ _ habove) (neighbourOk_of_rowOk s tag _ _ _ hleft)
    (predD117_staysInRange.lt s tag.ss) (fun _ _ _ _ => rfl)
  refine ⟨t, _, hexec, hblock, fun c _ => predD117_row_zero _ _ c, predD117_row_one_zero _ _,
    fun c hc _ => predD117_row_one _ _ hc, predD117_column_zero_two _ _, fun r hr _ => predD117_column_zero _ _ hr,
    fun r c hr _ hc _ => ?_⟩
  obtain ⟨r, rfl⟩ := Nat.exists_eq_add_of_le' hr
  obtain ⟨c, rfl⟩ := Nat.exists_eq_add_of_le' hc
  exact predD117_shift _ _ r c

/-- Settles O49: the first row and column of D135, and its shift. -/
theorem ipredD135Stepwise : Obligations.IpredD135Stepwise := by
  intro n tag s hm hdest habove hleft
  obtain ⟨t, hexec, hblock⟩ := execIpred_predicts (nb := readsD135 n.size) hm hdest
    (neighbourOk_of_rowOk s tag _ _ _ habove) (neighbourOk_of_rowOk s tag _ _ _ hleft)
    (predD135_staysInRange.lt s tag.ss) (fun _ _ _ _ => rfl)
  refine ⟨t, _, hexec, hblock, predD135_zero_zero _ _, fun c hc _ => predD135_row_zero _ _ hc,
    predD135_column_zero_one _ _, fun r hr _ => predD135_column_zero _ _ hr, fun r c hr _ hc _ => ?_⟩
  obtain ⟨r, rfl⟩ := Nat.exists_eq_add_of_le' hr
  obtain ⟨c, rfl⟩ := Nat.exists_eq_add_of_le' hc
  exact predD135_shift _ _ r c

/-! ### Properties of the predictors alone -/

/-- The indices of an array read from its first sample on. -/
theorem forall_mem_idxFrom_zero {n : Nat} {p : Int → Prop} :
    (∀ i ∈ idxFrom 0 n, p i) ↔ ∀ i : Int, 0 ≤ i → i < (n : Int) → p i := by
  simp only [mem_idxFrom_iff_bounds, zero_add, and_imp]

theorem predD45_const (n v r c : Nat) (l : Int → Nat) : predD45 n (fun _ => v) l r c = v := by
  rw [predD45, avg3_const, ite_self]

theorem predD117_const (v r c : Nat) : predD117 (fun _ => v) (fun _ => v) r c = v := by
  simp only [predD117, edge_const, avg2_const, avg3_const, ite_self]

theorem predD135_const (v r c : Nat) : predD135 (fun _ => v) (fun _ => v) r c = v := by
  simp only [predD135, edge_const, avg3_const]

/-- Settles O50: a predictor looks at no neighbour but those it reads, so they may all be taken to be `v`. -/
theorem directionalModesKeepAConstant : Obligations.DirectionalModesKeepAConstant := by
  intro n above left v r c hr hc habove
  have hrow : above (-1) = v → ∀ i ∈ idxFrom (-1) (n.size + 1), above i = v := by
    intro hcorner i hi
    obtain ⟨hlo, hhi⟩ := mem_idxFrom_iff_bounds.1 hi
    rcases hlo.eq_or_lt with rfl | hlo
    · exact hcorner
    · exact habove i (by omega) (by omega)
  refine ⟨fun hbeyond => ?_, fun hcorner hleft => ?_, fun hcorner hleft => ?_⟩
  · have hall : ∀ i ∈ idxFrom 0 (2 * n.size), above i = v := forall_mem_idxFrom_zero.2 (fun i hlo hhi => by
      rcases lt_or_ge i (n.size : Int) with hin | hout
      · exact habove i hlo hin
      · exact hbeyond i hout (by omega))
    rw [predD45_readsOnly n.size above (fun _ => v) left left hall (fun _ _ => rfl) r hr c hc, predD45_const]
  · have hcolumn : ∀ j ∈ idxFrom 0 (n.size - 1), left j = v :=
      forall_mem_idxFrom_zero.2 (fun j hlo hhi => hleft j hlo (by omega))
    rw [predD117_readsOnly n.size above (fun _ => v) left (fun _ => v) (hrow hcorner) hcolumn r hr c hc,
      predD117_const]
  · rw [predD135_readsOnly n.size above (fun _ => v) left (fun _ => v) (hrow hcorner)
      (forall_mem_idxFrom_zero.2 hleft) r hr c hc, predD135_const]

/-- Settles O51: the mean of as many zeros as largest values is half of one more than the largest value, exactly. -/
theorem dcOfExtremesIsMidRange : Obligations.DcOfExtremesIsMidRange := by
  intro n tag above left r c hneighbours
  have hboth := forall_mem_idxFrom_zero.2 hneighbours
  have habove : ∀ i ∈ idxFrom 0 n.size, above i = tag.maxv := fun i hi => (hboth i hi).1
  have hleft : ∀ j ∈ idxFrom 0 n.size, left j = 0 := fun j hj => (hboth j hj).2
  calc predDc n.size above left r c
      = rmean (n.size * tag.maxv) (2 * n.size) := by
        rw [predDc, sumSamples_congr (a' := fun _ => tag.maxv) habove, sumSamples_congr (a' := fun _ => 0) hleft,
          sumSamples_const, sumSamples_const, Nat.mul_zero, Nat.add_zero]
    _ = n.size * (tag.maxv + 1) / (2 * n.size) := by
        rw [rmean, Nat.mul_div_cancel_left _ (by decide), Nat.mul_add, Nat.mul_one]
    _ = 2 * n.size * 2 ^ (tag.bd - 1) / (2 * n.size) := by
        rw [tag.maxv_add_one, Nat.mul_left_comm, Nat.mul_assoc]
    _ = 2 ^ (tag.bd - 1) := Nat.mul_div_cancel_left _ (Nat.mul_pos (by decide) n.size_pos)

/-- Settles O52: TM saturates whatever its samples are, and V and H copy a neighbour of the block. -/
theorem copiesAndTmStayInRange : Obligations.CopiesAndTmStayInRange :=
  fun _ tag above left r c hr hc =>
    ⟨predTm_le tag.maxv above left r c, fun habove => habove c (by omega) (by omega),
      fun hleft => hleft r (by omega) (by omega)⟩

end Sys2Proof.Machine
